-- ==== Sys2Proof/Config.lean ====
section
/-! DEFINITION. The named parameters the spec leaves open and a model takes as arguments (00_scope.md R12; D24, D27,
D32, D38). No command has a value the spec leaves open, so there is no free value. The constant tables K and IV are
fixed by the spec and stand in Machine/Tables.lean. -/

namespace Sys2Proof

/-- How a platform delivers commands to its engines and responses back (R12, R52): the three ways the spec names, or one
of the platform's own. -/
inductive CommandTransport where
  /-- Memory-mapped registers. -/
  | memoryMapped
  /-- A coprocessor port. -/
  | coprocessorPort
  /-- A stream. -/
  | stream
  /-- Another way, by its name. -/
  | other (name : String)
  deriving DecidableEq, Repr

/-- The parameters of R12. -/
structure Params where
  /-- `PAD_ONE_BLOCK_MAX_R` (D27): 110 is the source's literal, 111 the value SHA-512 conformance needs. It binds the
  HOST only. -/
  padOneBlockMaxR : Nat := 110
  /-- `NUM_INSTANCES` (D24): the number of independent engines, at least 1. DESIGN CHOICE: the spec gives no default; 1 is
  the model's (log 19). -/
  numInstances : Nat := 1
  /-- `COMPRESS_LATENCY` (D32): no rule depends on it, and no definition of the model reads it (log 11). DESIGN CHOICE: the
  spec gives no default; 0 is the model's (log 19). -/
  compressLatency : Nat := 0
  /-- `CMD_TRANSPORT` (D38, U22): an argument of `deliver`, which gives what R52 fixes of every transport. The default is
  no rule's (log 18). -/
  cmdTransport : CommandTransport := .memoryMapped
  deriving DecidableEq, Repr

end Sys2Proof
end

