-- ==== Sys2Proof/Word.lean ====
section
/-! DEFINITION. The value types of the block (00_scope.md R10, R11, R13, R14): unsigned 64-bit words, bytes, and the
fixed sequences of them that the spec names. Bit 0 is the least significant bit (R13), as in `BitVec`. -/

namespace Sys2Proof

/-- `Word64` (R14): an unsigned 64-bit word. -/
abbrev Word := BitVec 64

/-- `Byte8` (R14). -/
abbrev Byte := BitVec 8

/-- HashState (R19, R22): 8 words, in the order a..h. -/
abbrev HashState := Vector Word 8

/-- MessageBlock (R19): 16 words. -/
abbrev MessageBlock := Vector Word 16

/-- The 128 bytes of one chunk, in stream order (R25). -/
abbrev BlockBytes := Vector Byte 128

/-- The byte form of a digest (R106): 64 bytes. -/
abbrev DigestBytes := Vector Byte 64

end Sys2Proof
end

