-- ==== Sys2Proof/Syntax.lean ====
section
/-! DEFINITION. What can be written down: the command word pair, the nine commands with their operands (one
constructor per row of opcode_table.json), the assembler's source form of a command, and the HOST's
pseudo-instructions. -/

namespace Sys2Proof

/-- A command as it reaches the engine (30_encoding.md R61): one 16-bit CMD word and one 64-bit WDATA word, always
both. -/
structure Command where
  cmd   : BitVec 16
  wdata : Word
  deriving DecidableEq, Repr

/-- The nine mnemonics of the opcode map (R65). -/
inductive Mnemonic where
  | init | seth | geth | pushb | setw | compress | getb | gets | clrb
  deriving DecidableEq, Repr

/-- A decoded command with the operands of R64. Each index type is exactly the range the encoding admits, so every term
is well formed (R64: "Every index that can be encoded is in range, so no operand range check exists"). -/
inductive Instr where
  /-- INIT (R85). -/
  | init
  /-- SETH idx, value (R86). -/
  | seth (idx : Fin 8) (value : Word)
  /-- GETH idx (R87). -/
  | geth (idx : Fin 8)
  /-- PUSHB byte (R91). -/
  | pushb (byte : Byte)
  /-- SETW idx, value (R92). -/
  | setw (idx : Fin 16) (value : Word)
  /-- COMPRESS (R103). -/
  | compress
  /-- GETB idx (R107). -/
  | getb (idx : Fin 64)
  /-- GETS (R88). -/
  | gets
  /-- CLRB (R93). -/
  | clrb
  deriving DecidableEq, Repr

/-- The mnemonic of a command. -/
def Instr.mnemonic : Instr → Mnemonic
  | .init => .init
  | .seth _ _ => .seth
  | .geth _ => .geth
  | .pushb _ => .pushb
  | .setw _ _ => .setw
  | .compress => .compress
  | .getb _ => .getb
  | .gets => .gets
  | .clrb => .clrb

/-- A command as the assembler reads it (R70): a mnemonic and its operands as numbers, not yet checked. -/
structure AsmCommand where
  mnemonic : Mnemonic
  operands : List Nat
  deriving DecidableEq, Repr

/-- The HOST's pseudo-instructions (R72; 45_host_pseudo.md R109 to R113). They are macros, never encoded. -/
inductive Pseudo where
  /-- BLOCK b0, …, b(n-1) (R109). -/
  | block (bytes : List Byte)
  /-- LOADW w0, …, w15 (R110). -/
  | loadw (words : MessageBlock)
  /-- DIGEST (R111). -/
  | digest
  /-- DIGESTW (R112). -/
  | digestw
  /-- HASH src, L (R113). -/
  | hash (src : List Byte) (len : Nat)
  deriving DecidableEq, Repr

end Sys2Proof
end

