-- ==== Sys2Proof/Decode.lean ====
section
/-! DEFINITION. The opcode map and the decoder of 30_encoding.md (R61 to R69), total on every CMD word, and after it the
encoder of R71. -/

namespace Sys2Proof

/-- `OP = CMD[15:12]` (R62). -/
def opOf (cmd : BitVec 16) : BitVec 4 := cmd.extractLsb' 12 4

/-- `IDX3 = zext(CMD[2:0])` (R64). -/
def idx3Of (cmd : BitVec 16) : Fin 8 := (cmd.extractLsb' 0 3).toFin

/-- `IDX4 = zext(CMD[3:0])` (R64). -/
def idx4Of (cmd : BitVec 16) : Fin 16 := (cmd.extractLsb' 0 4).toFin

/-- `IMM8 = CMD[7:0]` (R64). -/
def imm8Of (cmd : BitVec 16) : Byte := cmd.extractLsb' 0 8

/-- `IDX6 = zext(CMD[5:0])` (R64). -/
def idx6Of (cmd : BitVec 16) : Fin 64 := (cmd.extractLsb' 0 6).toFin

/-- The formats of R63. -/
inductive Format where
  | n | h | w | b | d
  deriving DecidableEq, Repr

/-- One row of the opcode map (R65). -/
structure OpcodeRow where
  mnemonic : Mnemonic
  format   : Format
  pattern  : BitVec 16
  mask     : BitVec 16
  deriving DecidableEq, Repr

/-- The opcode map (R65), in the order of the table. -/
def opcodeMap : List OpcodeRow :=
  [ { mnemonic := .init,     format := .n, pattern := 0x1000, mask := 0xFFFF },
    { mnemonic := .seth,     format := .h, pattern := 0x2000, mask := 0xFFF8 },
    { mnemonic := .geth,     format := .h, pattern := 0x3000, mask := 0xFFF8 },
    { mnemonic := .pushb,    format := .b, pattern := 0x4000, mask := 0xFF00 },
    { mnemonic := .setw,     format := .w, pattern := 0x5000, mask := 0xFFF0 },
    { mnemonic := .compress, format := .n, pattern := 0x6000, mask := 0xFFFF },
    { mnemonic := .getb,     format := .d, pattern := 0x7000, mask := 0xFFC0 },
    { mnemonic := .gets,     format := .n, pattern := 0x8000, mask := 0xFFFF },
    { mnemonic := .clrb,     format := .n, pattern := 0x9000, mask := 0xFFFF } ]

/-- A CMD word spells a row's command exactly when `(CMD & mask) == match` (R65). -/
def rowSpells (r : OpcodeRow) (cmd : BitVec 16) : Bool := cmd &&& r.mask == r.pattern

/-- The command of a mnemonic with the operands of R64, read from CMD and WDATA. WDATA is read by SETH and SETW
only. -/
def instrOf (m : Mnemonic) (c : Command) : Instr :=
  match m with
  | .init => .init
  | .seth => .seth (idx3Of c.cmd) c.wdata
  | .geth => .geth (idx3Of c.cmd)
  | .pushb => .pushb (imm8Of c.cmd)
  | .setw => .setw (idx4Of c.cmd) c.wdata
  | .compress => .compress
  | .getb => .getb (idx6Of c.cmd)
  | .gets => .gets
  | .clrb => .clrb

/-- Why a CMD word is illegal (R67): (a) its OP is reserved, or (b) its OP is assigned and a reserved bit is 1. -/
inductive Illegal where
  | reservedOpcode
  | reservedBits
  deriving DecidableEq, Repr

/-- The case of R67 that an illegal CMD word falls under. -/
def illegalReason (cmd : BitVec 16) : Illegal :=
  if opcodeMap.any (fun r => opOf r.pattern == opOf cmd) then .reservedBits else .reservedOpcode

/-- The decoder (R66): the row that spells CMD, with its operands, or ILLEGAL with its reason. -/
def decode (c : Command) : Except Illegal Instr :=
  match opcodeMap.find? (fun r => rowSpells r c.cmd) with
  | some r => .ok (instrOf r.mnemonic c)
  | none => .error (illegalReason c.cmd)

/-- The encoder (R71). For every command other than SETH and SETW it gives WDATA = 0. -/
def encode : Instr → Command
  | .init => { cmd := 0x1000, wdata := 0 }
  | .seth idx value => { cmd := 0x2000 ||| BitVec.ofNat 16 idx.val, wdata := value }
  | .geth idx => { cmd := 0x3000 ||| BitVec.ofNat 16 idx.val, wdata := 0 }
  | .pushb byte => { cmd := 0x4000 ||| byte.setWidth 16, wdata := 0 }
  | .setw idx value => { cmd := 0x5000 ||| BitVec.ofNat 16 idx.val, wdata := value }
  | .compress => { cmd := 0x6000, wdata := 0 }
  | .getb idx => { cmd := 0x7000 ||| BitVec.ofNat 16 idx.val, wdata := 0 }
  | .gets => { cmd := 0x8000, wdata := 0 }
  | .clrb => { cmd := 0x9000, wdata := 0 }

/-- The command whose bits are `w`, of which the low `nbits` are given and the rest are 0: CMD is bits 15 to 0 and WDATA
bits 79 to 16 (log 8). -/
def tableCommand (nbits w : Nat) : Command :=
  { cmd := BitVec.ofNat 16 (w % 2 ^ nbits), wdata := BitVec.ofNat 64 (w % 2 ^ nbits / 2 ^ 16) }

/-- What the decoder reads from a word numbered as opcode_table.json numbers it. -/
def decodeTableWord (nbits w : Nat) : Option Instr :=
  match decode (tableCommand nbits w) with
  | .ok i => some i
  | .error _ => none

end Sys2Proof
end

