-- ==== Sys2Proof/Machine/Datapath.lean ====
section
/-! DEFINITION. The pure word functions of 40_functions.md (R73 to R83). None reads or writes state. -/

namespace Sys2Proof.Machine

/-- `a + b` (R73): addition modulo 2^64, with no carry out and no flag. -/
def add64 (a b : Word) : Word := a + b

/-- `rotr(x, n)`, 0 < n < 64 (R75). -/
def rotr (x : Word) (n : Nat) : Word := (x >>> n) ||| (x <<< (64 - n))

/-- `x >> n`, 0 < n < 64 (R76): logical, zero-filling. -/
def shr (x : Word) (n : Nat) : Word := x >>> n

/-- The source's σ0 (R77). -/
def sigma0 (x : Word) : Word := rotr x 1 ^^^ rotr x 8 ^^^ shr x 7

/-- The source's σ1 (R78). -/
def sigma1 (x : Word) : Word := rotr x 19 ^^^ rotr x 61 ^^^ shr x 6

/-- The source's Σ0 (R79). -/
def bigSigma0 (a : Word) : Word := rotr a 28 ^^^ rotr a 34 ^^^ rotr a 39

/-- The source's Σ1 (R80). -/
def bigSigma1 (e : Word) : Word := rotr e 14 ^^^ rotr e 18 ^^^ rotr e 41

/-- Choose (R81). -/
def ch (e f g : Word) : Word := (e &&& f) ^^^ (~~~e &&& g)

/-- Majority (R82). -/
def maj (a b c : Word) : Word := (a &&& b) ^^^ (a &&& c) ^^^ (b &&& c)

end Sys2Proof.Machine
end

