-- ==== Sys2Proof/Machine/CompressionFunction.lean ====
section
/-! DEFINITION. The compression function COMPRESSF of 43_compression.md R95 to R102 as a pure function: schedule
expansion, 80 rounds, feed-forward; and the 16-word window form of the scheduler (R98). -/

namespace Sys2Proof.Machine

/-- W[t] for t = the number of schedule words already made (R97). -/
def scheduleNext (w : List Word) : Word :=
  add64 (add64 (add64 (w.getD (w.length - 16) 0) (sigma0 (w.getD (w.length - 15) 0))) (w.getD (w.length - 7) 0))
    (sigma1 (w.getD (w.length - 2) 0))

/-- `n` more schedule words, in increasing t (R97). -/
def extendSchedule : Nat → List Word → List Word
  | 0, w => w
  | n + 1, w => extendSchedule n (w ++ [scheduleNext w])

/-- The MessageSchedule W[0..79] (R35): W[0..15] are the block's words (R96), the other 64 follow (R97). -/
def schedule (m : MessageBlock) : List Word := extendSchedule 64 m.toList

/-- The window's shift at the end of a round (R98): `new = X[0] + sigma0(X[1]) + X[9] + sigma1(X[14])` enters at X[15]. -/
def windowShift (x : MessageBlock) : MessageBlock :=
  Vector.ofFn fun j : Fin 16 =>
    if h : j.val < 15 then x[j.val + 1]
    else add64 (add64 (add64 x[0] (sigma0 x[1])) x[9]) (sigma1 x[14])

/-- The window at round t (R98): the block's words at round 0, shifted once after each round. -/
def windowAt (m : MessageBlock) : Nat → MessageBlock
  | 0 => m
  | t + 1 => windowShift (windowAt m t)

/-- The eight working variables of one compression (R36). -/
structure Working where
  a : Word
  b : Word
  c : Word
  d : Word
  e : Word
  f : Word
  g : Word
  h : Word
  deriving DecidableEq, Repr

/-- Working-variable load (R99). -/
def loadWorking (hin : HashState) : Working :=
  { a := hin[0], b := hin[1], c := hin[2], d := hin[3], e := hin[4], f := hin[5], g := hin[6], h := hin[7] }

/-- `T1 = h + Sigma1(e) + Ch(e, f, g) + K[t] + W[t]` (R100). -/
def roundT1 (k w : Word) (v : Working) : Word :=
  add64 (add64 (add64 (add64 v.h (bigSigma1 v.e)) (ch v.e v.f v.g)) k) w

/-- `T2 = Sigma0(a) + Maj(a, b, c)` (R100). -/
def roundT2 (v : Working) : Word := add64 (bigSigma0 v.a) (maj v.a v.b v.c)

/-- One round with its round constant and schedule word, every assignment on the values before the round (R100). -/
def compressRound (k w : Word) (v : Working) : Working :=
  { a := add64 (roundT1 k w v) (roundT2 v), b := v.a, c := v.b, d := v.c,
    e := add64 v.d (roundT1 k w v), f := v.e, g := v.f, h := v.g }

/-- The working variables after the first `n` rounds, t = 0, …, n - 1 in order (R101). `wAt t` is W[t]. -/
def afterRounds (wAt : Nat → Word) (v : Working) : Nat → Working
  | 0 => v
  | t + 1 => compressRound (roundConstant t) (wAt t) (afterRounds wAt v t)

/-- Feed-forward (R102): the pre-round state plus the working variables, word by word. -/
def feedForward (hin : HashState) (v : Working) : HashState :=
  #v[add64 hin[0] v.a, add64 hin[1] v.b, add64 hin[2] v.c, add64 hin[3] v.d,
     add64 hin[4] v.e, add64 hin[5] v.f, add64 hin[6] v.g, add64 hin[7] v.h]

/-- `COMPRESSF(Hin, M)` (R95): the 80-word schedule, 80 rounds, feed-forward. -/
def compressF (hin : HashState) (m : MessageBlock) : HashState :=
  feedForward hin (afterRounds (fun t => (schedule m).getD t 0) (loadWorking hin) 80)

/-- COMPRESSF with the 16-word window in place of the 80-word schedule (R98): round t takes X[0] as W[t]. -/
def compressFWindow (hin : HashState) (m : MessageBlock) : HashState :=
  feedForward hin (afterRounds (fun t => (windowAt m t)[0]) (loadWorking hin) 80)

end Sys2Proof.Machine
end

