-- ==== Sys2Proof/Machine/State.lean ====
section
/-! DEFINITION. The state of one engine (10_state.md R21 to R42), the reasons a launch or a sequence can stop, and the
state after reset (70_reset_and_hazards.md R144). -/

namespace Sys2Proof.Machine

/-- The fault causes of 60_exceptions.md R126. The reserved codes 5 to 15 are never produced, so they are no
constructors (U12; log 14). -/
inductive FaultCause where
  /-- Code 0, NONE: no fault since reset. -/
  | none
  /-- Code 1, ILLEGAL_CMD (R127). -/
  | illegalCmd
  /-- Code 2, H_NO_VALUE (R128). -/
  | hNoValue
  /-- Code 3, BLOCK_INCOMPLETE (R129). -/
  | blockIncomplete
  /-- Code 4, BLOCK_OVERFLOW (R130). -/
  | blockOverflow
  deriving DecidableEq, Repr

/-- One thing that reaches the engine from outside: a command of its HOST (R54), or the reset event (R143). -/
inductive Input where
  | command (c : Command)
  | reset
  deriving DecidableEq, Repr

/-- The state of one engine: the list of R41, the response of the last command (R31; log 6), and the inputs issued and
not yet taken (the model's own field; log 4). -/
structure State where
  /-- H[0..7] (R22). A word holds a value only where HVAL is set. -/
  h       : HashState
  /-- HVAL[0..7] (R23). -/
  hval    : Vector Bool 8
  /-- MB[0..127] (R25). A byte holds a value only where MBV is set. -/
  mb      : BlockBytes
  /-- MBV[0..127] (R25). -/
  mbv     : Vector Bool 128
  /-- BPTR (R26): 8 bits, 0 to 128. -/
  bptr    : BitVec 8
  /-- FAULT (R28). -/
  fault   : Bool
  /-- FCAUSE (R29). -/
  fcause  : FaultCause
  /-- RDATA (R31): the response of the last command, or `none` (R31, D41). -/
  rdata   : Option Word
  /-- Inputs issued and not yet taken, oldest first (R54; log 4). -/
  pending : List Input
  deriving DecidableEq, Repr

/-- Why a LAUNCH failed: R133 asks that a model treat a faulted engine as a fault outcome of the launch. Raised by
`launch` (Machine/Launch.lean) when a sequence of commands ends with FAULT = 1. `step` never answers a fault: there
the fault entry of R132 is a next state (log 3). All are safe: a faulted launch proves nothing about a digest. -/
inductive Fault where
  /-- The first fault was ILLEGAL_CMD. Raised by `launch`. Safe. -/
  | illegalCmd
  /-- The first fault was H_NO_VALUE. Raised by `launch`. Safe. -/
  | hNoValue
  /-- The first fault was BLOCK_INCOMPLETE. Raised by `launch`. Safe. -/
  | blockIncomplete
  /-- The first fault was BLOCK_OVERFLOW. Raised by `launch`. Safe. -/
  | blockOverflow
  /-- FAULT = 1 with FCAUSE = NONE, a state no run reaches. Raised by `launch`. Safe. -/
  | unrecorded
  deriving DecidableEq, Repr

/-- Why the model gives no meaning to a request. `step` never answers a refusal. -/
inductive Refusal where
  /-- An instruction whose arm has no meaning yet. Raised by no arm: all nine commands have their meaning. Safe. -/
  | notModelled (mnemonic : String)
  /-- Commands of two HOSTs on one engine (R21, D42, U18). Raised by `launch` and `platformHost`. Safe. -/
  | twoHosts
  /-- HASH when the byte source cannot be read (R124, U4). Raised by `hashCommands`. Safe. -/
  | sourceUnavailable
  /-- HASH when the source does not hold exactly L bytes (R113 (a), U1). Raised by `hashCommands`. Safe. -/
  | lengthMismatch
  /-- HASH when 8 L is not below 2^64 (R113 (b), U2). Raised by `hashCommands`. Safe. -/
  | messageTooLong
  /-- HASH on an engine that is already faulted, outside precondition (c) of R113. DESIGN CHOICE: that it is refused is the
  model's (log 17). Raised by `launchHash`. Safe. -/
  | engineFaulted
  deriving DecidableEq, Repr

/-- The state right after reset (R144): no valid bit set, BPTR = 0, FAULT = 0, FCAUSE = NONE, no response. The words of H
and the bytes of MB "hold no value"; the model writes 0 there (logs 1 and 2). No input is pending (log 4). -/
def State.reset : State :=
  { h := Vector.replicate 8 0
    hval := Vector.replicate 8 false
    mb := Vector.replicate 128 0
    mbv := Vector.replicate 128 false
    bptr := 0
    fault := false
    fcause := .none
    rdata := none
    pending := [] }

end Sys2Proof.Machine
end

