-- ==== Sys2Proof/Machine/Flags.lean ====
section
/-! DEFINITION. The flag-like state as commands read it (10_state.md R32): the valid bits, taken alone and together, and
the STATUS view (R30, R88). The engine has no arithmetic flags. -/

namespace Sys2Proof.Machine

/-- HVAL[i] = 1 for all i: every hash word holds a value (R128). -/
abbrev HashAllValid (s : State) : Prop := ∀ i : Fin 8, s.hval[i.val] = true

/-- MBV[k] = 1 for all k: the block is complete (R94, R129). -/
abbrev BlockComplete (s : State) : Prop := ∀ k : Fin 128, s.mbv[k.val] = true

/-- WVAL bit i (R88): block word i is fully loaded. -/
def wordComplete (s : State) (i : Fin 16) : Bool :=
  s.mbv[8 * i.val] && s.mbv[8 * i.val + 1] && s.mbv[8 * i.val + 2] && s.mbv[8 * i.val + 3] &&
    s.mbv[8 * i.val + 4] && s.mbv[8 * i.val + 5] && s.mbv[8 * i.val + 6] && s.mbv[8 * i.val + 7]

/-- WVAL as 16 bits, in order (R88). -/
def wval (s : State) : Vector Bool 16 := Vector.ofFn fun i => wordComplete s i

/-- A list of bits as a number, the first bit the least significant (R88: "bit i = HVAL[i]"), widened to a word. -/
def bitsToWord (bits : List Bool) : Word := (BitVec.ofBoolListLE bits).setWidth 64

/-- The FCAUSE code (R126). -/
def causeCode : FaultCause → BitVec 4
  | .none => 0
  | .illegalCmd => 1
  | .hNoValue => 2
  | .blockIncomplete => 3
  | .blockOverflow => 4

/-- The STATUS view (R30), assembled as GETS does (R88). The reserved bits read 0. -/
def status (s : State) : Word :=
  s.bptr.setWidth 64
    ||| bitsToWord s.hval.toList <<< 8
    ||| bitsToWord [s.fault] <<< 16
    ||| (causeCode s.fcause).setWidth 64 <<< 20
    ||| bitsToWord (wval s).toList <<< 32

end Sys2Proof.Machine
end

