-- ==== Sys2Proof/Machine/ByteOrder.lean ====
section
/-! DEFINITION. The two big-endian conversions: DES, bytes to words (42_deserializer.md R90; R44, R45), and SERW and SER,
words to bytes (44_serializer.md R106; R46). Neither has state. -/

namespace Sys2Proof.Machine

/-- Eight bytes as one word, the first in the most significant place (R90). -/
def packWord (b0 b1 b2 b3 b4 b5 b6 b7 : Byte) : Word :=
  b0 ++ b1 ++ b2 ++ b3 ++ b4 ++ b5 ++ b6 ++ b7

/-- `DES(MB)` (R90): word i is bytes 8i to 8i+7, most significant first. -/
def des (mb : BlockBytes) : MessageBlock :=
  Vector.ofFn fun i : Fin 16 =>
    packWord mb[8 * i.val] mb[8 * i.val + 1] mb[8 * i.val + 2] mb[8 * i.val + 3]
      mb[8 * i.val + 4] mb[8 * i.val + 5] mb[8 * i.val + 6] mb[8 * i.val + 7]

/-- Byte j of SERW(v) (R106): `v[63-8j : 56-8j]`. -/
def serwByte (v : Word) (j : Nat) : Byte := v.extractLsb' (56 - 8 * j) 8

/-- `SERW(v)` (R106): the eight bytes of a word, most significant first. -/
def serw (v : Word) : Vector Byte 8 := Vector.ofFn fun j : Fin 8 => serwByte v j.val

/-- `SER(H)` (R106): the 64-byte digest form of the hash state. -/
def ser (h : HashState) : DigestBytes :=
  Vector.ofFn fun k : Fin 64 => serwByte h[k.val / 8] (k.val % 8)

end Sys2Proof.Machine
end

