-- ==== Sys2Proof/Machine/Operands.lean ====
section
/-! DEFINITION. What an operand of each format selects in the index spaces of 20_memory.md R43 (R64). SETH and GETH name
a hash word by IDX3, SETW a block word by IDX4, GETB a digest byte by IDX6, PUSHB carries a byte and names no place: it
writes at BPTR. -/

namespace Sys2Proof.Machine

/-- The hash word that holds digest byte `idx`: `IDX6 div 8` (R107). -/
def digestWordIndex (idx : Fin 64) : Fin 8 := ⟨idx.val / 8, by omega⟩

/-- The place of digest byte `idx` in its word, 0 the most significant: `IDX6 mod 8` (R107). -/
def digestByteIndex (idx : Fin 64) : Fin 8 := ⟨idx.val % 8, by omega⟩

/-- The block word that holds block byte `k`: word i is bytes 8i to 8i+7 (R44). -/
def blockWordOf (k : Fin 128) : Fin 16 := ⟨k.val / 8, by omega⟩

/-- The index the next PUSHB writes (R26). -/
def pushIndex (s : State) : Nat := s.bptr.toNat

end Sys2Proof.Machine
end

