-- ==== Sys2Proof/Machine/Ops.lean ====
section
/-! DEFINITION. The named operations on one engine's state: the response, the fault entry and reset, and every way a
command writes the hash state or the block buffer. Each takes and gives whole states. -/

namespace Sys2Proof.Machine

/-- What performing an instruction answers. -/
abbrev Result := Host.Outcome State Fault Refusal

/-! ### Response (R17, R31) -/

/-- `respond(v)`: the command's response is `v`. -/
def respond (v : Word) (s : State) : State := { s with rdata := some v }

/-- A command that does not respond gives `none` (R31, D41). -/
def noResponse (s : State) : State := { s with rdata := none }

/-! ### Fault entry and reset (R132, R143) -/

/-- `raise Fault(cause)`: the fault entry of R132. FAULT <- 1, FCAUSE <- cause, response none, and nothing else
changes. There is no return from it (R134). -/
def raise (cause : FaultCause) (s : State) : State :=
  { s with fault := true, fcause := cause, rdata := none }

/-- The reset event (R143): every piece of the engine's state takes its reset value, whatever it was. What the HOST has
issued behind it stays issued (log 12). It is the only way out of the faulted state. -/
def applyReset (s : State) : State := { State.reset with pending := s.pending }

/-! ### Hash state (R85, R86, R103) -/

/-- All eight words at once, each now holding a value (INIT; COMPRESS leaves every HVAL bit set, R23). -/
def writeHashState (v : HashState) (s : State) : State :=
  { s with h := v, hval := Vector.replicate 8 true }

/-- One word, now holding a value (SETH). -/
def writeHashWord (idx : Fin 8) (v : Word) (s : State) : State :=
  { s with h := s.h.set idx.val v, hval := s.hval.set idx.val true }

/-! ### Block buffer (R91, R92, R93) -/

/-- The byte goes to MB[BPTR] and BPTR moves on (PUSHB below 128). A BPTR that is no index, which no run reaches, writes
nothing (log 7). -/
def pushByte (b : Byte) (s : State) : State :=
  { s with
    mb := s.mb.setIfInBounds (pushIndex s) b
    mbv := s.mbv.setIfInBounds (pushIndex s) true
    bptr := s.bptr + 1 }

/-- The block's bytes with word `idx` replaced by the eight bytes of `v`: for j in 0..7, MB[8 idx + j] <-
WDATA[63-8j : 56-8j] (R92). -/
def bytesWithWord (idx : Fin 16) (v : Word) (mb : BlockBytes) : BlockBytes :=
  mb
    |>.set (8 * idx.val + 0) (serwByte v 0)
    |>.set (8 * idx.val + 1) (serwByte v 1)
    |>.set (8 * idx.val + 2) (serwByte v 2)
    |>.set (8 * idx.val + 3) (serwByte v 3)
    |>.set (8 * idx.val + 4) (serwByte v 4)
    |>.set (8 * idx.val + 5) (serwByte v 5)
    |>.set (8 * idx.val + 6) (serwByte v 6)
    |>.set (8 * idx.val + 7) (serwByte v 7)

/-- The block's valid bits with those of word `idx` set (R92). -/
def validWithWord (idx : Fin 16) (mbv : Vector Bool 128) : Vector Bool 128 :=
  mbv
    |>.set (8 * idx.val + 0) true
    |>.set (8 * idx.val + 1) true
    |>.set (8 * idx.val + 2) true
    |>.set (8 * idx.val + 3) true
    |>.set (8 * idx.val + 4) true
    |>.set (8 * idx.val + 5) true
    |>.set (8 * idx.val + 6) true
    |>.set (8 * idx.val + 7) true

/-- The eight bytes of block word `idx`, big-endian, now holding a value (SETW); BPTR stays. -/
def writeBlockWord (idx : Fin 16) (v : Word) (s : State) : State :=
  { s with mb := bytesWithWord idx v s.mb, mbv := validWithWord idx s.mbv }

/-- No block byte holds a value and BPTR = 0 (CLRB; COMPRESS after it has read the block, R27). -/
def clearBlock (s : State) : State := { s with mbv := Vector.replicate 128 false, bptr := 0 }

end Sys2Proof.Machine
end

