-- ==== Sys2Proof/Machine/Compression.lean ====
section
/-! DEFINITION. The COMPRESS command (43_compression.md R103 to R105). -/

namespace Sys2Proof.Machine

/-- COMPRESS (R103): H <- COMPRESSF(H, DES(MB)), all eight words at once, and the block is consumed. H_NO_VALUE is
checked before BLOCK_INCOMPLETE (R131). -/
def execCompress (s : State) : Result :=
  if HashAllValid s then
    if BlockComplete s then
      .next (noResponse (clearBlock (writeHashState (compressF s.h (des s.mb)) s)))
    else .next (raise .blockIncomplete s)
  else .next (raise .hNoValue s)

end Sys2Proof.Machine
end

