-- ==== Sys2Proof/Machine/Deserializer.lean ====
section
/-! DEFINITION. The commands on the block buffer (42_deserializer.md R91 to R93): PUSHB, SETW, CLRB. -/

namespace Sys2Proof.Machine

/-- PUSHB byte (R91): the byte goes to MB[BPTR], or the 129th byte faults BLOCK_OVERFLOW. -/
def execPushb (byte : Byte) (s : State) : Result :=
  if s.bptr = 128 then .next (raise .blockOverflow s) else .next (noResponse (pushByte byte s))

/-- SETW idx, value (R92): WDATA, big-endian, to MB[8 idx .. 8 idx + 7]; BPTR unchanged. -/
def execSetw (idx : Fin 16) (value : Word) (s : State) : Result :=
  .next (noResponse (writeBlockWord idx value s))

/-- CLRB (R93): MBV all 0, BPTR <- 0; the hash state is untouched. -/
def execClrb (s : State) : Result := .next (noResponse (clearBlock s))

end Sys2Proof.Machine
end

