-- ==== Sys2Proof/Machine/HashState.lean ====
section
/-! DEFINITION. The commands on the hash state and the status view (41_hash_state.md R85 to R88): INIT, SETH, GETH,
GETS. Each is what the command step performs after decode (R84). -/

namespace Sys2Proof.Machine

/-- INIT (R85): H <- IV, HVAL all 1. The block buffer is untouched. -/
def execInit (s : State) : Result := .next (noResponse (writeHashState iv s))

/-- SETH idx, value (R86): H[idx] <- WDATA, HVAL[idx] <- 1. -/
def execSeth (idx : Fin 8) (value : Word) (s : State) : Result :=
  .next (noResponse (writeHashWord idx value s))

/-- GETH idx (R87): respond H[idx], or fault H_NO_VALUE. -/
def execGeth (idx : Fin 8) (s : State) : Result :=
  if s.hval[idx.val] = true then .next (respond s.h[idx.val] s) else .next (raise .hNoValue s)

/-- GETS (R88): respond STATUS. It never faults and writes no state. -/
def execGets (s : State) : Result := .next (respond (status s) s)

end Sys2Proof.Machine
end

