-- ==== Sys2Proof/Machine/Serializer.lean ====
section
/-! DEFINITION. The digest-byte command GETB (44_serializer.md R107). -/

namespace Sys2Proof.Machine

/-- GETB idx (R107): respond byte `idx mod 8` of H[idx div 8], zero-extended, or fault H_NO_VALUE when that one word has no
value. -/
def execGetb (idx : Fin 64) (s : State) : Result :=
  if s.hval[(digestWordIndex idx).val] = true then
    .next (respond ((serwByte s.h[(digestWordIndex idx).val] (digestByteIndex idx).val).setWidth 64) s)
  else .next (raise .hNoValue s)

end Sys2Proof.Machine
end

