-- ==== Sys2Proof/Machine/Dispatch.lean ====
section
/-! DEFINITION. Performing a decoded command (41_hash_state.md R84, "perform c"): one arm per command. -/

namespace Sys2Proof.Machine

def exec (i : Instr) (s : State) : Host.Outcome State Fault Refusal :=
  match i with
  | .init => Sys2Proof.Machine.execInit s
  | .seth idx value => Sys2Proof.Machine.execSeth idx value s
  | .geth idx => Sys2Proof.Machine.execGeth idx s
  | .pushb byte => Sys2Proof.Machine.execPushb byte s
  | .setw idx value => Sys2Proof.Machine.execSetw idx value s
  | .compress => Sys2Proof.Machine.execCompress s
  | .getb idx => Sys2Proof.Machine.execGetb idx s
  | .gets => Sys2Proof.Machine.execGets s
  | .clrb => Sys2Proof.Machine.execClrb s

end Sys2Proof.Machine
end

