-- ==== Sys2Proof/Machine/CommandStep.lean ====
section
/-! DEFINITION. The command step every command goes through (41_hash_state.md R84), the step on any input, and the
engine's step: it takes the oldest input issued. -/

namespace Sys2Proof.Machine

/-- The CMD word of GETS, the only command performed while FAULT = 1 (R84, R133). -/
def getsCmd : BitVec 16 := 0x8000

/-- `step(CMD, WDATA)` of R84. While FAULT = 1 only GETS is performed and every other word, legal or not, is ignored
(R133). Otherwise an illegal word faults ILLEGAL_CMD (R127) and a legal one is performed. -/
def commandStep (c : Command) (s : State) : Result :=
  if s.fault = true then
    if c.cmd = getsCmd then exec .gets s else .next (noResponse s)
  else
    match decode c with
    | .error _ => .next (raise .illegalCmd s)
    | .ok i => exec i s

/-- One input: a command (R84) or the reset event (R143). -/
def inputStep (input : Input) (s : State) : Result :=
  match input with
  | .command c => commandStep c s
  | .reset => .next (applyReset s)

/-- One step of the engine: the oldest input issued is taken and performed (R54). With nothing issued the engine holds its
state unchanged (R142; log 5). -/
def engineStep (s : State) : Result :=
  match s.pending with
  | [] => .next s
  | input :: rest => inputStep input { s with pending := rest }

/-- What reaches an engine of the commands its HOST issues over a transport: every command, whole and in issue order, whatever
the transport is (R52, U22; log 18). -/
def deliver (_ : CommandTransport) (issued : List Command) : List Input := issued.map Input.command

/-- Inputs issued behind everything that is pending (R54). -/
def issueBehind (inputs : List Input) (s : State) : State := { s with pending := s.pending ++ inputs }

/-- The inputs with a command put in front of them, so that the next step performs it (log 4). -/
def issueNext (c : Command) (s : State) : State := { s with pending := .command c :: s.pending }

end Sys2Proof.Machine
end

