-- ==== Sys2Proof/Machine/Step.lean ====
section
/-! DEFINITION. The step of the machine, and how a word comes to be the next instruction. The engine has no program
counter and fetches nothing (10_state.md R33): the next instruction is the oldest command the HOST has issued. -/

namespace Sys2Proof.Machine

/-- One step of the engine (R84). -/
def step (s : State) : Host.Outcome State Fault Refusal := engineStep s

/-- `s` with the instruction of bits `w` placed in front of everything pending, so that the next step performs it. It is a
placing for one step: no launch and no event of a platform uses it, for what a HOST issues goes behind what is pending
(R54; log 4, log 8). -/
def State.withFetchWord (s : State) (nbits w : Nat) : State := issueNext (tableCommand nbits w) s

end Sys2Proof.Machine
end

