-- ==== Sys2Proof/Machine/Launch.lean ====
section
/-! DEFINITION. A launch: a sequence of commands one HOST issues to an engine, performed in issue order (20_memory.md
R54), with its responses. A launch that ends faulted is a fault outcome (60_exceptions.md R133, 70 R147). -/

namespace Sys2Proof.Machine

/-- A command and the HOST that issued it (R21). -/
structure Issued where
  host    : Nat
  command : Command
  deriving DecidableEq, Repr

/-- An engine and the one HOST it serves (R21, D42). Which HOST that is, is no state of the engine (R41): the platform fixes it
and nothing changes it, not even a reset (log 9). -/
structure Engine where
  host  : Nat
  state : State
  deriving DecidableEq, Repr

/-- What a sequence of commands leaves: the engine's state, and one response or `none` for each command, in order
(R31). -/
structure LaunchResult where
  final     : State
  responses : List (Option Word)
  deriving DecidableEq, Repr

/-- The command step of R84 for each command in order, every step from where the one before it ended, with the responses. As
one command step does, it looks at no pending input: commands are issued to an engine by `issueAndPerform`. -/
def commandSteps : List Command → State → Host.Outcome LaunchResult Fault Refusal
  | [], s => .next { final := s, responses := [] }
  | c :: cs, s =>
    match commandStep c s with
    | .next t =>
      match commandSteps cs t with
      | .next r => .next { final := r.final, responses := t.rdata :: r.responses }
      | .fault f => .fault f
      | .refused f => .refused f
    | .fault f => .fault f
    | .refused f => .refused f

/-- Inputs performed one at a time, in order (R54). -/
def performInputs : List Input → State → Result
  | [], s => .next s
  | input :: rest, s =>
    match inputStep input s with
    | .next t => performInputs rest t
    | .fault f => .fault f
    | .refused f => .refused f

/-- Everything pending at the engine performed, the oldest first, with nothing left pending (R54). -/
def drain (s : State) : Result := performInputs s.pending { s with pending := [] }

/-- Commands issued to an engine and performed, in issue order (R33, R54, R69, R148): first everything issued before them and
still pending, then they, each seeing the effects of all before it. The responses are those of these commands. -/
def issueAndPerform (cs : List Command) (s : State) : Host.Outcome LaunchResult Fault Refusal :=
  match drain s with
  | .next t => commandSteps cs t
  | .fault f => .fault f
  | .refused f => .refused f

/-- The launch fault of a fault cause (R133). -/
def launchFault : FaultCause → Fault
  | .none => .unrecorded
  | .illegalCmd => .illegalCmd
  | .hNoValue => .hNoValue
  | .blockIncomplete => .blockIncomplete
  | .blockOverflow => .blockOverflow

/-- Every command was issued by this HOST (R21, D42). -/
def issuedOnlyBy (host : Nat) (issued : List Issued) : Bool := issued.all fun i => i.host == host

/-- A finished run is a success only with FAULT = 0 (R133, R147). -/
def settleLaunch (o : Host.Outcome LaunchResult Fault Refusal) : Host.Outcome LaunchResult Fault Refusal :=
  match o with
  | .next r => if r.final.fault = true then .fault (launchFault r.final.fcause) else .next r
  | .fault f => .fault f
  | .refused f => .refused f

/-- A launch on an engine: its commands are issued behind whatever is pending. A command of any HOST but the engine's own is refused, in the first launch and in every later one
(R21, D42, U18; log 9). -/
def launch (issued : List Issued) (e : Engine) : Host.Outcome LaunchResult Fault Refusal :=
  if issuedOnlyBy e.host issued = true then settleLaunch (issueAndPerform (issued.map Issued.command) e.state)
  else .refused .twoHosts

/-- Launches one after another on the same engine, each from where the one before it ended; the first that does not succeed
is the outcome. -/
def launches : List (List Issued) → Engine → Host.Outcome (List LaunchResult) Fault Refusal
  | [], _ => .next []
  | issued :: later, e =>
    match launch issued e with
    | .next r =>
      match launches later { e with state := r.final } with
      | .next rs => .next (r :: rs)
      | .fault f => .fault f
      | .refused f => .refused f
    | .fault f => .fault f
    | .refused f => .refused f

/-- The same HOST issues every command. -/
def issuedBy (host : Nat) (cs : List Command) : List Issued := cs.map fun c => { host := host, command := c }

end Sys2Proof.Machine
end

