-- ==== Sys2Proof/Machine/MessageAssembler.lean ====
section
/-! DEFINITION. The HOST's side (45_host_pseudo.md): the macros BLOCK, LOADW, DIGEST, DIGESTW (R109 to R112), the Message
Assembler HASH (R113 to R119), and the digest of a message as the rules define it, with no engine in it. -/

namespace Sys2Proof.Machine

/-! ### Macros (R109 to R112) -/

/-- BLOCK b0, …, b(n-1): one PUSHB for each byte, in order (R109). -/
def blockCommands (bytes : List Byte) : List Command := bytes.map fun b => encode (.pushb b)

/-- LOADW w0, …, w15: one SETW for each word, in order (R110). -/
def loadwCommands (words : MessageBlock) : List Command :=
  (List.finRange 16).map fun i => encode (.setw i words[i.val])

/-- DIGEST: GETB 0, …, GETB 63 (R111). -/
def digestCommands : List Command := (List.finRange 64).map fun k => encode (.getb k)

/-- DIGESTW: GETH 0, …, GETH 7 (R112). -/
def digestwCommands : List Command := (List.finRange 8).map fun i => encode (.geth i)

/-! ### The Message Assembler (R113 to R119) -/

/-- n = L div 128, the number of full blocks (R113, R114). -/
def fullBlockCount (src : List Byte) : Nat := src.length / 128

/-- R = L - 128 n, the number of remaining bytes (R113). -/
def remainderLength (src : List Byte) : Nat := src.length % 128

/-- The 128 bytes of full chunk j, in stream order (R114). -/
def fullChunk (src : List Byte) (j : Nat) : List Byte := (src.drop (128 * j)).take 128

/-- The FINAL-PAD buffer (R115): the remaining bytes, 0x80, and zeros to 128 bytes. -/
def finalBuffer (src : List Byte) : List Byte :=
  src.drop (128 * fullBlockCount src) ++ [0x80] ++ List.replicate (127 - remainderLength src) 0

/-- The length field's word, 8 L (R116 to R118). -/
def lengthWord (src : List Byte) : Word := BitVec.ofNat 64 (8 * src.length)

/-- One full block: its bytes, then COMPRESS (R114). -/
def fullBlockCommands (src : List Byte) (j : Nat) : List Command :=
  blockCommands (fullChunk src j) ++ [encode .compress]

/-- The last block of a message: 120 bytes, the length as word 15, COMPRESS (R116, R117). -/
def lengthBlockCommands (bytes : List Byte) (len : Word) : List Command :=
  blockCommands bytes ++ [encode (.setw 15 len), encode .compress]

/-- FINAL-PAD (R116, R117): one final block when R is at most the threshold, else two. -/
def finalCommands (maxR : Nat) (src : List Byte) : List Command :=
  if remainderLength src ≤ maxR then
    lengthBlockCommands ((finalBuffer src).take 120) (lengthWord src)
  else
    blockCommands (finalBuffer src) ++ [encode .compress] ++
      lengthBlockCommands (List.replicate 120 0) (lengthWord src)

/-- The expansion of HASH (R113), for the threshold `PAD_ONE_BLOCK_MAX_R`. -/
def hashExpansion (maxR : Nat) (src : List Byte) : List Command :=
  [encode .init] ++ (List.range (fullBlockCount src)).flatMap (fullBlockCommands src) ++ finalCommands maxR src

/-- HASH src, L with its preconditions (R113, R118, R124): a source that cannot be read, one that does not hold exactly L
bytes, and a bit length of 2^64 or more are refused. -/
def hashCommands (maxR : Nat) (source : Option (List Byte)) (len : Nat) :
    Host.Outcome (List Command) Fault Refusal :=
  match source with
  | none => .refused .sourceUnavailable
  | some src =>
    if src.length = len then
      if 8 * len < 2 ^ 64 then .next (hashExpansion maxR src) else .refused .messageTooLong
    else .refused .lengthMismatch

/-- HASH launched on an engine by one HOST. Precondition (c) of R113 is that the engine is not faulted, here when all that was
issued before has been performed and HASH's first command is next (R54); R113 gives no outcome where it is. DESIGN CHOICE:
the model refuses it there, before any of its commands is issued (log 17), and checks the preconditions before the HOST
(log 9). -/
def launchHash (p : Params) (host : Nat) (source : Option (List Byte)) (len : Nat) (e : Engine) :
    Host.Outcome LaunchResult Fault Refusal :=
  match drain e.state with
  | .next s =>
    if s.fault = true then .refused .engineFaulted
    else
      match hashCommands p.padOneBlockMaxR source len with
      | .next cs => launch (issuedBy host cs) e
      | .fault f => .fault f
      | .refused f => .refused f
  | .fault f => .fault f
  | .refused f => .refused f

/-! ### Expansion of a pseudo-instruction (R72) -/

/-- The commands a pseudo-instruction stands for, with the preconditions of HASH. -/
def expandPseudo (p : Params) : Pseudo → Host.Outcome (List Command) Fault Refusal
  | .block bytes => .next (blockCommands bytes)
  | .loadw words => .next (loadwCommands words)
  | .digest => .next digestCommands
  | .digestw => .next digestwCommands
  | .hash src len => hashCommands p.padOneBlockMaxR (some src) len

/-! ### The digest of a message, by the rules alone -/

/-- 128 bytes of a list as a block's bytes. -/
def toBlockBytes (bytes : List Byte) : BlockBytes := Vector.ofFn fun k : Fin 128 => bytes.getD k.val 0

/-- The last block: `DES(bytes ++ SERW(8L))` for 120 bytes (R116). -/
def lengthBlock (bytes : List Byte) (len : Word) : MessageBlock := des (toBlockBytes (bytes ++ (serw len).toList))

/-- The padded final block or blocks (R116, R117). -/
def finalBlocks (maxR : Nat) (src : List Byte) : List MessageBlock :=
  if remainderLength src ≤ maxR then [lengthBlock ((finalBuffer src).take 120) (lengthWord src)]
  else [des (toBlockBytes (finalBuffer src)), lengthBlock (List.replicate 120 0) (lengthWord src)]

/-- All blocks of a message, full and final, in order (R104, R114). -/
def messageBlocks (maxR : Nat) (src : List Byte) : List MessageBlock :=
  (List.range (fullBlockCount src)).map (fun j => des (toBlockBytes (fullChunk src j))) ++ finalBlocks maxR src

/-- The digest (R89, R104): COMPRESSF folded over the blocks, from IV. -/
def messageDigest (maxR : Nat) (src : List Byte) : HashState := (messageBlocks maxR src).foldl compressF iv

/-- The block count law's right side (R120). -/
def blockCountLaw (maxR len : Nat) : Nat := len / 128 + (if len % 128 ≤ maxR then 1 else 2)

end Sys2Proof.Machine
end

