-- ==== Sys2Proof/WellFormed.lean ====
section
/-! DEFINITION. The checks on what a source text or a platform may write. A decoded command (`Instr`) needs none: its
operand types are the encodable ranges (30_encoding.md R64). What can be ill formed is the assembler's source form
(R70), a HOST pseudo-instruction (R109, R113) and a choice of parameters (R12). -/

namespace Sys2Proof

/-- The bounds of the operands a mnemonic takes, in order (R70): the operand at each place is below the number there. -/
def Mnemonic.operandBounds : Mnemonic → List Nat
  | .init => []
  | .seth => [8, 2 ^ 64]
  | .geth => [8]
  | .pushb => [256]
  | .setw => [16, 2 ^ 64]
  | .compress => []
  | .getb => [64]
  | .gets => []
  | .clrb => []

/-- No operand is missing or extra (R70). -/
def AsmCommand.operandCountOk (a : AsmCommand) : Bool :=
  a.operands.length == a.mnemonic.operandBounds.length

/-- No operand is out of range (R70). -/
def AsmCommand.operandRangesOk (a : AsmCommand) : Bool :=
  (a.operands.zip a.mnemonic.operandBounds).all fun p => decide (p.1 < p.2)

/-- R70: an operand out of range, or a missing or extra operand, is an assembly error, not a command. -/
def AsmCommand.wf (a : AsmCommand) : Bool :=
  a.operandCountOk && a.operandRangesOk

/-- The preconditions a pseudo-instruction has on its own operands: a BLOCK has at most 128 bytes (R109); a HASH has
exactly L bytes (R113 (a)) and a bit length below 2^64 (R113 (b)). -/
def Pseudo.wf : Pseudo → Bool
  | .block bytes => decide (bytes.length ≤ 128)
  | .loadw _ => true
  | .digest => true
  | .digestw => true
  | .hash src len => decide (src.length = len) && decide (8 * len < 2 ^ 64)

/-- R12, D24, D27: the padding threshold is 110 or 111, and there is at least one engine. -/
def Params.wf (p : Params) : Bool :=
  (p.padOneBlockMaxR == 110 || p.padOneBlockMaxR == 111) && decide (1 ≤ p.numInstances)

end Sys2Proof
end

