-- ==== Sys2Proof/Machine/Assembler.lean ====
section
/-! DEFINITION. The assembler of 30_encoding.md R70 to R72: from a checked source form to a command, and from a line of
text to the commands it stands for. It is a HOST tool; the engine never sees text. What the spec does not say about the
text (which characters are blank, where blanks may stand) is log 16. -/

namespace Sys2Proof.Machine

/-! ### From the source form to a command (R70, R71) -/

/-- The command a source form stands for; none when an operand is missing, extra or out of range (R70). -/
def instrOfAsm (a : AsmCommand) : Option Instr :=
  match a.mnemonic, a.operands with
  | .init, [] => some .init
  | .seth, [i, v] => if h : i < 8 ∧ v < 2 ^ 64 then some (.seth ⟨i, h.1⟩ (BitVec.ofNat 64 v)) else none
  | .geth, [i] => if h : i < 8 then some (.geth ⟨i, h⟩) else none
  | .pushb, [b] => if b < 256 then some (.pushb (BitVec.ofNat 8 b)) else none
  | .setw, [i, v] => if h : i < 16 ∧ v < 2 ^ 64 then some (.setw ⟨i, h.1⟩ (BitVec.ofNat 64 v)) else none
  | .compress, [] => some .compress
  | .getb, [i] => if h : i < 64 then some (.getb ⟨i, h⟩) else none
  | .gets, [] => some .gets
  | .clrb, [] => some .clrb
  | _, _ => none

/-- The word pair of a source form (R71). -/
def assemble (a : AsmCommand) : Option Command := (instrOfAsm a).map encode

/-! ### Text (R70) -/

/-- Why a line is an assembly error. -/
inductive AsmError where
  | unknownMnemonic
  | badNumber
  | badOperands
  deriving DecidableEq, Repr

/-- Space and tab separate (log 16). -/
def isBlank (c : Char) : Bool := c == ' ' || c == '\t'

/-- The text without blanks at either end. -/
def trimBlanks (cs : List Char) : List Char := ((cs.dropWhile isBlank).reverse.dropWhile isBlank).reverse

/-- A `;` starts a comment that runs to the end of the line. -/
def withoutComment (cs : List Char) : List Char := cs.takeWhile fun c => c != ';'

/-- The value of a digit in a base of at most 16. -/
def digitValue (base : Nat) (c : Char) : Option Nat :=
  let n := c.toNat
  let v := if 48 ≤ n ∧ n ≤ 57 then n - 48 else if 97 ≤ n ∧ n ≤ 102 then n - 87
    else if 65 ≤ n ∧ n ≤ 70 then n - 55 else base
  if v < base then some v else none

/-- The number of a digit sequence, most significant digit first, after `acc`. -/
def digitsValue (base : Nat) : List Char → Nat → Option Nat
  | [], acc => some acc
  | c :: cs, acc =>
    match digitValue base c with
    | some v => digitsValue base cs (base * acc + v)
    | none => none

/-- Numbers are decimal, or hexadecimal with prefix `0x`. -/
def parseNumber : List Char → Option Nat
  | [] => none
  | '0' :: 'x' :: [] => none
  | '0' :: 'x' :: cs => digitsValue 16 cs 0
  | cs => digitsValue 10 cs 0

/-- The fields between commas. -/
def splitCommas : List Char → List (List Char)
  | [] => [[]]
  | c :: cs =>
    match splitCommas cs with
    | [] => [[c]]
    | field :: fields => if c == ',' then [] :: field :: fields else (c :: field) :: fields

/-- The numbers of all fields, if every field is one. -/
def parseNumbers : List (List Char) → Option (List Nat)
  | [] => some []
  | f :: fs =>
    match parseNumber (trimBlanks f), parseNumbers fs with
    | some n, some ns => some (n :: ns)
    | _, _ => none

/-- The operands of a command: none, or numbers separated by commas. -/
def parseOperands (cs : List Char) : Option (List Nat) :=
  if trimBlanks cs = [] then some [] else parseNumbers (splitCommas cs)

/-- The mnemonic of a word, whatever the case of its letters. -/
def mnemonicOf (word : List Char) : Option Mnemonic :=
  let w := word.map Char.toUpper
  if w = "INIT".toList then some .init
  else if w = "SETH".toList then some .seth
  else if w = "GETH".toList then some .geth
  else if w = "PUSHB".toList then some .pushb
  else if w = "SETW".toList then some .setw
  else if w = "COMPRESS".toList then some .compress
  else if w = "GETB".toList then some .getb
  else if w = "GETS".toList then some .gets
  else if w = "CLRB".toList then some .clrb
  else none

/-- The macros a line may name (R72), with operands already read: BLOCK takes at most 128 bytes, LOADW sixteen words,
DIGEST and DIGESTW none. HASH has no line form in the spec: its source is a byte stream (log 16). -/
def macroCommands (word : List Char) (operands : List Nat) : Except AsmError (List Command) :=
  let w := word.map Char.toUpper
  if w = "BLOCK".toList then
    if operands.length ≤ 128 ∧ operands.all (fun b => decide (b < 256)) = true then
      .ok (blockCommands (operands.map fun b => BitVec.ofNat 8 b))
    else .error .badOperands
  else if w = "LOADW".toList then
    if operands.length = 16 ∧ operands.all (fun v => decide (v < 2 ^ 64)) = true then
      .ok (loadwCommands (Vector.ofFn fun i : Fin 16 => BitVec.ofNat 64 (operands.getD i.val 0)))
    else .error .badOperands
  else if w = "DIGEST".toList then if operands = [] then .ok digestCommands else .error .badOperands
  else if w = "DIGESTW".toList then if operands = [] then .ok digestwCommands else .error .badOperands
  else .error .unknownMnemonic

/-- One command or macro, without comment and repeat count. -/
def assembleText (cs : List Char) : Except AsmError (List Command) :=
  let word := cs.takeWhile fun c => !isBlank c
  match parseOperands (cs.dropWhile fun c => !isBlank c) with
  | none => .error .badNumber
  | some operands =>
    match mnemonicOf word with
    | none => macroCommands word operands
    | some m =>
      match assemble { mnemonic := m, operands := operands } with
      | some c => .ok [c]
      | none => .error .badOperands

/-- One line (R70): a command with an optional repeat count `× n`, or nothing but a comment. DESIGN CHOICE: the count may
also stand behind a macro, where R70 gives it only after a command, and means n copies of the whole expansion
(log 16). -/
def assembleLine (line : String) : Except AsmError (List Command) :=
  let body := trimBlanks (withoutComment line.toList)
  if body = [] then .ok []
  else
    match assembleText (trimBlanks (body.takeWhile fun c => c != '×')) with
    | .error e => .error e
    | .ok cs =>
      match body.dropWhile fun c => c != '×' with
      | [] => .ok cs
      | _ :: count =>
        match parseNumber (trimBlanks count) with
        | some n => .ok (List.replicate n cs).flatten
        | none => .error .badNumber

/-- A program, one command a line (R70); the first line that is an error makes the program one. -/
def assembleProgram : List String → Except AsmError (List Command)
  | [] => .ok []
  | l :: ls =>
    match assembleLine l, assembleProgram ls with
    | .ok cs, .ok rest => .ok (cs ++ rest)
    | .error e, _ => .error e
    | .ok _, .error e => .error e

end Sys2Proof.Machine
end

