-- ==== Sys2Proof/Machine/Platform.lean ====
section
/-! DEFINITION. Several engines on one platform (60_exceptions.md R140; 20_memory.md R60): each has its own state and
its own HOST, and they share only the constant tables. Time is a sequence of events, each one agent's (70 R151). -/

namespace Sys2Proof.Machine

/-- The engines of a platform, each by its place and with its own HOST. No engine knows its place (R140). -/
abbrev Platform := List Engine

/-- `NUM_INSTANCES` engines right after reset. Each has its own HOST (R140), numbered here as the engine's place is (log 9). -/
def platformReset (p : Params) : Platform :=
  (List.range p.numInstances).map fun n => { host := n, state := State.reset }

/-- Engine `n` takes one step; no other engine is read or written (R60). A place that holds no engine is left alone. -/
def platformStep (n : Nat) (engines : Platform) : Host.Outcome Platform Fault Refusal :=
  match engines[n]? with
  | none => .next engines
  | some e =>
    match step e.state with
    | .next t => .next (engines.set n { e with state := t })
    | .fault f => .fault f
    | .refused f => .refused f

/-- Inputs issued behind everything pending at engine `n`. A place that holds no engine is left alone. -/
def platformIssue (n : Nat) (inputs : List Input) (engines : Platform) : Platform :=
  engines.modify n fun e => { e with state := issueBehind inputs e.state }

/-- Commands of a HOST to engine `n`, over the platform's transport. The engine serves its own HOST only: commands of another
are refused (R21, D42, U18; log 9), so what is pending at an engine was issued by its own HOST. -/
def platformHost (p : Params) (host n : Nat) (issued : List Command) (engines : Platform) :
    Host.Outcome Platform Fault Refusal :=
  match engines[n]? with
  | none => .next engines
  | some e =>
    if host = e.host then .next (platformIssue n (deliver p.cmdTransport issued) engines) else .refused .twoHosts

/-- One event of a platform: a step of engine `n`, commands a HOST issues to engine `n`, or a reset of engine `n` (R21,
R143). -/
inductive PlatformEvent where
  | engine (n : Nat)
  | host (host n : Nat) (issued : List Command)
  | reset (n : Nat)
  deriving DecidableEq, Repr

/-- What an event does. What a HOST issues arrives behind all that was issued before (R52, R54). DESIGN CHOICE: a reset is
queued there too, so that every command issued before it and not yet taken is performed first; the spec says only that a
reset falls between two commands (R145; log 12). -/
def platformEvent (p : Params) (event : PlatformEvent) (engines : Platform) : Host.Outcome Platform Fault Refusal :=
  match event with
  | .engine n => platformStep n engines
  | .host host n issued => platformHost p host n issued engines
  | .reset n => .next (platformIssue n [.reset] engines)

end Sys2Proof.Machine
end

