-- ==== Sys2Proof/Safety.lean ====
section
/-! DEFINITION. What claims are stated in: the named entry states (70_reset_and_hazards.md R144, R147), a successful
end (R147), the engine's invariant, agreement of two states on everything that holds a value, and the fairness of the
engines (R151). -/

namespace Sys2Proof.Machine

/-- `ResetState(s)` (R144): nothing holds a value, and there is no fault. -/
structure ResetState (s : State) : Prop where
  hval   : ∀ i : Fin 8, s.hval[i.val] = false
  mbv    : ∀ k : Fin 128, s.mbv[k.val] = false
  bptr   : s.bptr = 0
  fault  : s.fault = false
  fcause : s.fcause = .none

/-- `CleanState(s, V)` (R147): the hash state is V, the block buffer is empty, no fault. -/
structure CleanState (s : State) (v : HashState) : Prop where
  hval  : ∀ i : Fin 8, s.hval[i.val] = true
  h     : s.h = v
  mbv   : ∀ k : Fin 128, s.mbv[k.val] = false
  bptr  : s.bptr = 0
  fault : s.fault = false

/-- `CleanInit(s)` (R147). -/
def CleanInit (s : State) : Prop := CleanState s iv

/-- No fault recorded at the end (R147). -/
def Unfaulted (s : State) : Prop := s.fault = false

/-- The engine's invariant: BPTR is 0 to 128 (R26), every byte already pushed into the block holds a value (R25, R26), and
FCAUSE is NONE exactly while FAULT = 0 (R29). -/
structure Inv (s : State) : Prop where
  bptrRange   : s.bptr.toNat ≤ 128
  pushedValid : ∀ k : Fin 128, k.val < s.bptr.toNat → s.mbv[k.val] = true
  faultCause  : s.fcause = .none ↔ s.fault = false

/-- Two states agree on all that holds a value, and may differ in what H and MB hold where no valid bit is set
(R16, R22, R25). -/
structure SameValues (s t : State) : Prop where
  hval    : s.hval = t.hval
  h       : ∀ i : Fin 8, s.hval[i.val] = true → s.h[i.val] = t.h[i.val]
  mbv     : s.mbv = t.mbv
  mb      : ∀ k : Fin 128, s.mbv[k.val] = true → s.mb[k.val] = t.mb[k.val]
  bptr    : s.bptr = t.bptr
  fault   : s.fault = t.fault
  fcause  : s.fcause = t.fcause
  rdata   : s.rdata = t.rdata
  pending : s.pending = t.pending

/-! ### What a command leaves alone (the access matrix of 10_state.md R34) -/

/-- H and HVAL are as they were. -/
def SameHash (s t : State) : Prop := t.h = s.h ∧ t.hval = s.hval

/-- MB, MBV and BPTR are as they were. -/
def SameBlock (s t : State) : Prop := t.mb = s.mb ∧ t.mbv = s.mbv ∧ t.bptr = s.bptr

/-- FAULT and FCAUSE are as they were. -/
def SameFault (s t : State) : Prop := t.fault = s.fault ∧ t.fcause = s.fcause

/-- What the HOST has issued and the engine has not taken is as it was. -/
def SamePending (s t : State) : Prop := t.pending = s.pending

/-- The fault entry of R132 took place with this cause, and nothing else changed. -/
structure FaultTaken (cause : FaultCause) (s t : State) : Prop where
  fault   : t.fault = true
  fcause  : t.fcause = cause
  rdata   : t.rdata = none
  hash    : SameHash s t
  block   : SameBlock s t
  pending : SamePending s t

/-- The command responded with `v` and wrote no state (R87, R88, R107). -/
structure Responded (v : Word) (s t : State) : Prop where
  rdata   : t.rdata = some v
  hash    : SameHash s t
  block   : SameBlock s t
  faults  : SameFault s t
  pending : SamePending s t

/-! ### Runs of a platform and their fairness (70_reset_and_hazards.md R151) -/

/-- A run: at each time one event happens to the engines and gives the next engines. -/
def PlatformRun (p : Params) (events : Nat → PlatformEvent) (engines : Nat → Platform) : Prop :=
  ∀ time, platformEvent p (events time) (engines time) = .next (engines (time + 1))

/-- Engine `n` can perform a command or take a reset: something has been issued to it. -/
def Enabled (n : Nat) (engines : Platform) : Prop :=
  ∃ e, engines[n]? = some e ∧ e.state.pending ≠ []

/-- Weak fairness of every ENGINE (R151): an engine that stays enabled from some time on steps at that time or later. It is the
only assumption on when anything happens. -/
def WeaklyFair (events : Nat → PlatformEvent) (engines : Nat → Platform) : Prop :=
  ∀ n time, (∀ later, time ≤ later → Enabled n (engines later)) →
    ∃ later, time ≤ later ∧ events later = .engine n

end Sys2Proof.Machine
end

