-- ==== Sys2Proof/Certificates/Slice0/Obligations.lean ====
section
/-! DEFINITION. The statements for the provers, from the numbered rules of spec/. Each docstring names the rule. -/

open Sys2Proof Sys2Proof.Machine

/-! ### Encoding (30_encoding.md) -/

/-- 30_encoding.md R64, R66, R71: decoding what the encoder wrote gives the command back, every operand at every value. -/
def Obligations.DecodeOfEncodeIsTheInstruction : Prop :=
  ∀ i : Instr, decode (encode i) = .ok i

/-- The other direction: a legal CMD word is the one the encoder writes for what it decodes to, and WDATA is kept where
the command reads it (R64, R71). -/
def Obligations.EncodeOfDecodeIsTheCommandWord : Prop :=
  ∀ (c : Command) (i : Instr), decode c = .ok i →
    (encode i).cmd = c.cmd ∧ (i.mnemonic = .seth ∨ i.mnemonic = .setw → encode i = c)

/-- R71: the words the assembler emits, and its example. -/
def Obligations.AssemblerEmitsTheWordsOfTheTable : Prop :=
  assemble { mnemonic := .init, operands := [] } = some { cmd := 0x1000, wdata := 0 } ∧
  assemble { mnemonic := .compress, operands := [] } = some { cmd := 0x6000, wdata := 0 } ∧
  assemble { mnemonic := .gets, operands := [] } = some { cmd := 0x8000, wdata := 0 } ∧
  assemble { mnemonic := .clrb, operands := [] } = some { cmd := 0x9000, wdata := 0 } ∧
  (∀ idx value : Nat, idx < 8 → value < 2 ^ 64 → ∃ c,
    assemble { mnemonic := .seth, operands := [idx, value] } = some c ∧
      c.cmd.toNat = 0x2000 ||| idx ∧ c.wdata.toNat = value) ∧
  (∀ idx : Nat, idx < 8 → ∃ c,
    assemble { mnemonic := .geth, operands := [idx] } = some c ∧ c.cmd.toNat = 0x3000 ||| idx ∧ c.wdata = 0) ∧
  (∀ byte : Nat, byte < 256 → ∃ c,
    assemble { mnemonic := .pushb, operands := [byte] } = some c ∧ c.cmd.toNat = 0x4000 ||| byte ∧ c.wdata = 0) ∧
  (∀ idx value : Nat, idx < 16 → value < 2 ^ 64 → ∃ c,
    assemble { mnemonic := .setw, operands := [idx, value] } = some c ∧
      c.cmd.toNat = 0x5000 ||| idx ∧ c.wdata.toNat = value) ∧
  (∀ idx : Nat, idx < 64 → ∃ c,
    assemble { mnemonic := .getb, operands := [idx] } = some c ∧ c.cmd.toNat = 0x7000 ||| idx ∧ c.wdata = 0) ∧
  assemble { mnemonic := .setw, operands := [15, 0x18] } = some { cmd := 0x500F, wdata := 0x18 }

/-- R70: exactly the source forms with the right number of operands, each in range, are commands. -/
def Obligations.AssemblerAcceptsExactlyWellFormedForms : Prop :=
  ∀ a : AsmCommand, (assemble a).isSome = a.wf

/-- R65: each row's mask and match say exactly when a CMD word spells its command, with the operands of R64; and a word
that no row matches, those of the reserved OP values among them, decodes to no command. -/
def Obligations.CommandWordSpellsExactlyItsRow : Prop :=
  ∀ c : Command,
    (c.cmd &&& 0xFFFF = 0x1000 ↔ decode c = .ok .init) ∧
    (c.cmd &&& 0xFFF8 = 0x2000 ↔
      ∃ idx, decode c = .ok (.seth idx c.wdata) ∧ idx.val = c.cmd.toNat % 8) ∧
    (c.cmd &&& 0xFFF8 = 0x3000 ↔ ∃ idx, decode c = .ok (.geth idx) ∧ idx.val = c.cmd.toNat % 8) ∧
    (c.cmd &&& 0xFF00 = 0x4000 ↔ ∃ b, decode c = .ok (.pushb b) ∧ b.toNat = c.cmd.toNat % 256) ∧
    (c.cmd &&& 0xFFF0 = 0x5000 ↔
      ∃ idx, decode c = .ok (.setw idx c.wdata) ∧ idx.val = c.cmd.toNat % 16) ∧
    (c.cmd &&& 0xFFFF = 0x6000 ↔ decode c = .ok .compress) ∧
    (c.cmd &&& 0xFFC0 = 0x7000 ↔ ∃ idx, decode c = .ok (.getb idx) ∧ idx.val = c.cmd.toNat % 64) ∧
    (c.cmd &&& 0xFFFF = 0x8000 ↔ decode c = .ok .gets) ∧
    (c.cmd &&& 0xFFFF = 0x9000 ↔ decode c = .ok .clrb) ∧
    (c.cmd.toNat / 0x1000 = 0 ∨ 0xA ≤ c.cmd.toNat / 0x1000 → ∀ i, decode c ≠ .ok i)

/-- R66: at most one row matches any CMD, a CMD decodes to a command exactly when a row matches it, and exactly 356 CMD values
do. -/
def Obligations.RowsAreDisjointAndSpell356Words : Prop :=
  opcodeMap.Pairwise (fun r r' => ∀ cmd : BitVec 16, ¬ (rowSpells r cmd = true ∧ rowSpells r' cmd = true)) ∧
  (∀ c : Command, (∃ i, decode c = .ok i) ↔ opcodeMap.any (fun r => rowSpells r c.cmd) = true) ∧
  ∃ words : List (BitVec 16), words.Nodup ∧ words.length = 356 ∧
    ∀ c : Command, (∃ i, decode c = .ok i) ↔ c.cmd ∈ words

/-- R67, R127: the illegal words are those with a reserved OP and those with a reserved bit of their format set; each, on an
engine that is not faulted, takes the ILLEGAL_CMD fault and changes nothing else. -/
def Obligations.IllegalWordsTakeIllegalCmd : Prop :=
  ∀ c : Command,
    (decode c = .error .reservedOpcode ↔ (c.cmd.toNat / 0x1000 = 0 ∨ 0xA ≤ c.cmd.toNat / 0x1000)) ∧
    (decode c = .error .reservedBits ↔
      (((c.cmd.toNat / 0x1000 = 1 ∨ c.cmd.toNat / 0x1000 = 6 ∨ c.cmd.toNat / 0x1000 = 8 ∨ c.cmd.toNat / 0x1000 = 9) ∧
          c.cmd.toNat % 0x1000 ≠ 0) ∨
        ((c.cmd.toNat / 0x1000 = 2 ∨ c.cmd.toNat / 0x1000 = 3) ∧ 8 ≤ c.cmd.toNat % 0x1000) ∨
        (c.cmd.toNat / 0x1000 = 4 ∧ 256 ≤ c.cmd.toNat % 0x1000) ∨
        (c.cmd.toNat / 0x1000 = 5 ∧ 16 ≤ c.cmd.toNat % 0x1000) ∨
        (c.cmd.toNat / 0x1000 = 7 ∧ 64 ≤ c.cmd.toNat % 0x1000))) ∧
    ∀ (s : State) (e : Illegal), s.fault = false → decode c = .error e →
      ∃ t, commandStep c s = .next t ∧ FaultTaken .illegalCmd s t

/-- R64: WDATA is read only by SETH and SETW; every word that decodes to neither, the illegal words with their OP among them,
acts the same whatever WDATA is. -/
def Obligations.UnusedWriteDataIsIgnored : Prop :=
  ∀ (c : Command) (w : Word) (s : State),
    (∀ idx value, decode c ≠ .ok (.seth idx value)) → (∀ idx value, decode c ≠ .ok (.setw idx value)) →
      commandStep { c with wdata := w } s = commandStep c s

/-- A few words, bit by bit from the formats of R63, decode to the commands they stand for. -/
def Obligations.SampleWordsDecode : Prop :=
  decodeTableWord 16 0b0001000000000000 = some .init ∧
  decodeTableWord 80 (0b0010000000000101 + 0xFEDCBA9876543210 * 2 ^ 16) = some (.seth 5 0xFEDCBA9876543210) ∧
  decodeTableWord 16 0b0011000000000110 = some (.geth 6) ∧
  decodeTableWord 16 0b0100000010100001 = some (.pushb 0xA1) ∧
  decodeTableWord 80 (0b0101000000001101 + 0x0123456789ABCDEF * 2 ^ 16) = some (.setw 13 0x0123456789ABCDEF) ∧
  decodeTableWord 16 0b0110000000000000 = some .compress ∧
  decodeTableWord 16 0b0111000000101011 = some (.getb 43) ∧
  decodeTableWord 16 0b1000000000000000 = some .gets ∧
  decodeTableWord 16 0b1001000000000000 = some .clrb ∧
  decodeTableWord 16 0b0010000000001000 = none

/-! ### The step (41_hash_state.md R84; 20_memory.md R54) -/

/-- A step runs the decoded instruction: the oldest input issued is taken, and where it is a command that decodes to `i` on
an engine that is not faulted, the step is `exec i` on the state with that input taken. -/
def Obligations.StepRunsTheDecodedCommand : Prop :=
  ∀ (s : State) (c : Command) (rest : List Input) (i : Instr),
    s.pending = .command c :: rest → s.fault = false → decode c = .ok i →
      step s = exec i { s with pending := rest }

/-- A table word that decodes, placed as `withFetchWord` places it, is what the next step runs (logs 4 and 8). -/
def Obligations.FetchedWordIsWhatTheStepRuns : Prop :=
  ∀ (s : State) (nbits w : Nat) (i : Instr), s.fault = false → decodeTableWord nbits w = some i →
    step (s.withFetchWord nbits w) = exec i s

/-- The rest of what a step takes: the reset event gives the reset state with the later inputs kept (log 12), and with
nothing issued the state is held (R142; log 5). -/
def Obligations.StepTakesResetAndHoldsWhenIdle : Prop :=
  (∀ (s : State) (rest : List Input), s.pending = .reset :: rest →
    step s = .next { State.reset with pending := rest }) ∧
  (∀ s : State, s.pending = [] → step s = .next s)

/-- R84: the command step. Faulted: GETS is performed, every other word gives response none and no state change. Not
faulted: an illegal word faults, a legal one is performed with its operands. -/
def Obligations.CommandStepFollowsItsRule : Prop :=
  ∀ (c : Command) (s : State) (rest : List Input),
    (s.fault = true → c.cmd = 0x8000 →
      step { s with pending := .command c :: rest } = exec .gets { s with pending := rest }) ∧
    (s.fault = true → c.cmd ≠ 0x8000 →
      step { s with pending := .command c :: rest } = .next { s with rdata := none, pending := rest }) ∧
    (∀ e, s.fault = false → decode c = .error e →
      ∃ t, step { s with pending := .command c :: rest } = .next t ∧
        FaultTaken .illegalCmd { s with pending := rest } t) ∧
    (∀ i, s.fault = false → decode c = .ok i →
      step { s with pending := .command c :: rest } = exec i { s with pending := rest })

/-- R54: the engine performs the commands one at a time, in the order they were issued: as many steps as there are commands
give the state of performing them in that order, whatever is issued behind them, over whatever transport they come (R52:
no rule depends on it). Commands issued to an engine with inputs still pending are performed after all of those, each
response being the one after that command's step, and nothing is then pending. -/
def Obligations.StepsPerformCommandsInIssueOrder : Prop :=
  (∀ (transport : CommandTransport) (cs : List Command) (rest : List Input) (s : State), ∃ r,
    commandSteps cs { s with pending := rest } = .next r ∧
      r.responses.length = cs.length ∧
      Sys2Proof.core.run cs.length { s with pending := deliver transport cs ++ rest } = .next r.final) ∧
  (∀ (transport : CommandTransport) (cs : List Command) (s : State), ∃ r,
    issueAndPerform cs s = .next r ∧ r.final.pending = [] ∧ r.responses.length = cs.length ∧
      Sys2Proof.core.run (s.pending.length + cs.length) (issueBehind (deliver transport cs) s) = .next r.final ∧
      ∀ k : Nat, k < cs.length → ∃ t,
        Sys2Proof.core.run (s.pending.length + k + 1) (issueBehind (deliver transport cs) s) = .next t ∧
          r.responses[k]? = some t.rdata)

/-- R151 and its liveness assumption, weak fairness of the ENGINE: in a run of a platform, untimed and in whatever order the
agents act, in which every engine that stays enabled steps at some time, everything issued to an engine is eventually
taken from the head of its inputs by a step of that engine, which completes it (R152). That a reset stands among the
inputs, behind what was issued before it, is log 12's choice. -/
def Obligations.EveryIssuedInputIsEventuallyPerformed : Prop :=
  ∀ (p : Params) (events : Nat → PlatformEvent) (engines : Nat → Platform),
    PlatformRun p events engines → WeaklyFair events engines →
      ∀ (n time : Nat) (e : Engine) (front : List Input) (input : Input) (back : List Input),
        (engines time)[n]? = some e → e.state.pending = front ++ input :: back →
          ∃ later u t rest, time ≤ later ∧ events later = .engine n ∧
            (engines later)[n]? = some { e with state := u } ∧ u.pending = input :: (back ++ rest) ∧
              inputStep input { u with pending := back ++ rest } = .next t ∧
                (engines (later + 1))[n]? = some { e with state := t }

/-- R152: every command ends, either completed or faulted, and a faulted engine is quiescent but still answers GETS. -/
def Obligations.EveryCommandEndsCompletedOrFaulted : Prop :=
  (∀ s : State, ∃ t, step s = .next t) ∧
  (∀ (c : Command) (s : State), s.fault = false → ∃ t, commandStep c s = .next t ∧
    (t.fault = false ∨ ∃ cause, FaultTaken cause s t)) ∧
  (∀ (c : Command) (s : State), s.fault = true → c.cmd = 0x8000 →
    ∃ t v, commandStep c s = .next t ∧ Responded v s t) ∧
  (∀ (c : Command) (s : State), s.fault = true → c.cmd ≠ 0x8000 → ∃ t, commandStep c s = .next t ∧
    t.rdata = none ∧ SameHash s t ∧ SameBlock s t ∧ SameFault s t)

/-! ### The commands on the hash state (41_hash_state.md R85 to R88) -/

/-- R85: INIT. CMD is 0x1000 exactly; H <- IV word by word, HVAL all 1; no response; the block buffer is not touched; two
INITs in a row are one INIT. It never faults. -/
def Obligations.InitLoadsTheInitializationVector : Prop :=
  (∀ c : Command, decode c = .ok .init ↔ c.cmd = 0x1000) ∧
  ∀ s : State, ∃ t, exec .init s = .next t ∧
    t.h[0] = 0x6a09e667f3bcc908 ∧ t.h[1] = 0xbb67ae8584caa73b ∧ t.h[2] = 0x3c6ef372fe94f82b ∧
    t.h[3] = 0xa54ff53a5f1d36f1 ∧ t.h[4] = 0x510e527fade682d1 ∧ t.h[5] = 0x9b05688c2b3e6c1f ∧
    t.h[6] = 0x1f83d9abfb41bd6b ∧ t.h[7] = 0x5be0cd19137e2179 ∧
    (∀ i : Fin 8, t.hval[i.val] = true) ∧ t.rdata = none ∧
    SameBlock s t ∧ SameFault s t ∧ SamePending s t ∧ exec .init t = .next t

/-- R86: SETH. CMD is 0x2000 | idx and WDATA the value; H[idx] <- WDATA and HVAL[idx] <- 1; the other seven words and
their valid bits are unchanged; the block buffer is not touched; no response; it never faults; SETH of all eight words
with the IV values equals INIT. -/
def Obligations.SethWritesOneHashWord : Prop :=
  (∀ (idx : Fin 8) (value : Word) (c : Command), decode c = .ok (.seth idx value) ↔
    c.cmd = 0x2000 ||| BitVec.ofNat 16 idx.val ∧ c.wdata = value) ∧
  (∀ (idx : Fin 8) (value : Word) (s : State), ∃ t, exec (.seth idx value) s = .next t ∧
    t.h[idx.val] = value ∧ t.hval[idx.val] = true ∧
    (∀ i : Fin 8, i ≠ idx → t.h[i.val] = s.h[i.val] ∧ t.hval[i.val] = s.hval[i.val]) ∧
    t.rdata = none ∧ SameBlock s t ∧ SameFault s t ∧ SamePending s t) ∧
  (∀ s : State, s.fault = false → ∃ r,
    commandSteps ((List.finRange 8).map fun i => encode (.seth i iv[i.val])) s = .next r ∧
      exec .init s = .next r.final)

/-- R149 (d): a digest is suspended by reading its state with GETH 0 to GETH 7 and resumed, on any engine that is not
faulted, by writing the words read back with SETH 0 to SETH 7: the hash state is then what it was, and nothing else of
the second engine's state is changed. -/
def Obligations.SavedHashStateIsRestored : Prop :=
  ∀ s u : State, s.fault = false → (∀ i : Fin 8, s.hval[i.val] = true) → u.fault = false → ∃ r v q,
    commandSteps digestwCommands s = .next r ∧ r.responses = (v : HashState).toList.map some ∧
    commandSteps ((List.finRange 8).map fun i => encode (.seth i v[i.val])) u = .next q ∧
      q.final.h = s.h ∧ (∀ i : Fin 8, q.final.hval[i.val] = true) ∧
      SameBlock u q.final ∧ SameFault u q.final

/-- R87: GETH. CMD is 0x3000 | idx. It responds H[idx] and writes nothing where the word holds a value, and a repeat
responds the same; it takes H_NO_VALUE where the word holds none. -/
def Obligations.GethRespondsOrFaults : Prop :=
  (∀ (idx : Fin 8) (c : Command), decode c = .ok (.geth idx) ↔ c.cmd = 0x3000 ||| BitVec.ofNat 16 idx.val) ∧
  ∀ (idx : Fin 8) (s : State),
    (s.hval[idx.val] = true →
      ∃ t, exec (.geth idx) s = .next t ∧ Responded s.h[idx.val] s t ∧ exec (.geth idx) t = .next t) ∧
    (s.hval[idx.val] = false → ∃ t, exec (.geth idx) s = .next t ∧ FaultTaken .hNoValue s t)

/-- R88: GETS. CMD is 0x8000 exactly. It responds the STATUS view, field by field, the reserved bits 0, and writes nothing;
the cause codes are those of R126. It never faults, in any state. -/
def Obligations.GetsRespondsTheStatusFields : Prop :=
  (∀ c : Command, decode c = .ok .gets ↔ c.cmd = 0x8000) ∧
  ∀ s : State, ∃ t v, exec .gets s = .next t ∧ Responded v s t ∧
    v.extractLsb' 0 8 = s.bptr ∧
    (∀ i : Fin 8, v.getLsbD (8 + i.val) = s.hval[i.val]) ∧
    v.getLsbD 16 = s.fault ∧
    v.extractLsb' 17 3 = 0 ∧
    v.extractLsb' 20 4 = (match s.fcause with
      | .none => 0 | .illegalCmd => 1 | .hNoValue => 2 | .blockIncomplete => 3 | .blockOverflow => 4) ∧
    v.extractLsb' 24 8 = 0 ∧
    (∀ i : Fin 16, v.getLsbD (32 + i.val) = true ↔
      ∀ k : Fin 128, k.val / 8 = i.val → s.mbv[k.val] = true) ∧
    v.extractLsb' 48 16 = 0

/-! ### The commands on the block buffer (42_deserializer.md R90 to R94) -/

/-- R91: PUSHB. CMD is 0x4000 | byte. Below 128 bytes the byte goes to MB[BPTR], its valid bit is set and BPTR moves on, every
other byte and the hash state unchanged; at 128 it takes BLOCK_OVERFLOW. -/
def Obligations.PushbAppendsOneByteOrOverflows : Prop :=
  (∀ (b : Byte) (c : Command), decode c = .ok (.pushb b) ↔ c.cmd = 0x4000 ||| b.setWidth 16) ∧
  ∀ (b : Byte) (s : State),
    (s.bptr.toNat < 128 → ∃ t, exec (.pushb b) s = .next t ∧
      (∀ k : Fin 128, k.val = s.bptr.toNat → t.mb[k.val] = b ∧ t.mbv[k.val] = true) ∧
      (∀ k : Fin 128, k.val ≠ s.bptr.toNat → t.mb[k.val] = s.mb[k.val] ∧ t.mbv[k.val] = s.mbv[k.val]) ∧
      t.bptr.toNat = s.bptr.toNat + 1 ∧ t.rdata = none ∧
      SameHash s t ∧ SameFault s t ∧ SamePending s t) ∧
    (s.bptr.toNat = 128 → ∃ t, exec (.pushb b) s = .next t ∧ FaultTaken .blockOverflow s t)

/-- R92: SETW. CMD is 0x5000 | idx and WDATA the value. Byte j of WDATA, most significant first, goes to MB[8 idx + j] and
its valid bit is set; every other byte and BPTR and the hash state are unchanged; DES reads the word back; no response; it never faults. -/
def Obligations.SetwWritesOneBlockWordBigEndian : Prop :=
  (∀ (idx : Fin 16) (value : Word) (c : Command), decode c = .ok (.setw idx value) ↔
    c.cmd = 0x5000 ||| BitVec.ofNat 16 idx.val ∧ c.wdata = value) ∧
  ∀ (idx : Fin 16) (value : Word) (s : State), ∃ t, exec (.setw idx value) s = .next t ∧
    (∀ k : Fin 128, k.val / 8 = idx.val →
      t.mb[k.val] = value.extractLsb' (56 - 8 * (k.val % 8)) 8 ∧ t.mbv[k.val] = true) ∧
    (∀ k : Fin 128, k.val / 8 ≠ idx.val → t.mb[k.val] = s.mb[k.val] ∧ t.mbv[k.val] = s.mbv[k.val]) ∧
    (des t.mb)[idx.val] = value ∧ t.bptr = s.bptr ∧ t.rdata = none ∧
    SameHash s t ∧ SameFault s t ∧ SamePending s t

/-- R93: CLRB. No block byte holds a value and BPTR = 0; the hash state is unchanged; no response; CLRB on an empty buffer
changes nothing but the response. -/
def Obligations.ClrbDiscardsTheBlock : Prop :=
  (∀ c : Command, decode c = .ok .clrb ↔ c.cmd = 0x9000) ∧
  ∀ s : State, ∃ t, exec .clrb s = .next t ∧
    (∀ k : Fin 128, t.mbv[k.val] = false) ∧ t.bptr = 0 ∧ t.rdata = none ∧ t.mb = s.mb ∧
    SameHash s t ∧ SameFault s t ∧ SamePending s t ∧
    ((∀ k : Fin 128, s.mbv[k.val] = false) → s.bptr = 0 → t = { s with rdata := none })

/-- R48: SETW i v and eight PUSHBs of the bytes of v at 8i to 8i+7, most significant first, leave the same MB and MBV. -/
def Obligations.SetwAndEightPushbsAgree : Prop :=
  ∀ (idx : Fin 16) (v : Word) (s : State), s.fault = false → s.bptr.toNat = 8 * idx.val → ∃ r t,
    commandSteps (blockCommands (serw v).toList) s = .next r ∧ exec (.setw idx v) s = .next t ∧
      r.final.mb = t.mb ∧ r.final.mbv = t.mbv

/-- R94: a block is complete exactly when STATUS WVAL = 0xFFFF, whatever BPTR is; COMPRESS on a hash state that holds values
takes BLOCK_INCOMPLETE exactly when it is not complete. -/
def Obligations.CompletenessIsWvalAllOnes : Prop :=
  ∀ s : State,
    ((status s).extractLsb' 32 16 = 0xFFFF ↔ ∀ k : Fin 128, s.mbv[k.val] = true) ∧
    ((∀ i : Fin 8, s.hval[i.val] = true) → s.fault = false →
      ((∃ t, exec .compress s = .next t ∧ FaultTaken .blockIncomplete s t) ↔
        (status s).extractLsb' 32 16 ≠ 0xFFFF))

/-! ### The digest bytes (44_serializer.md R106, R107) -/

/-- R107: GETB. CMD is 0x7000 | idx. It responds byte idx mod 8, most significant first, of H[idx div 8], zero-extended, and
writes nothing, and a repeat responds the same; where that one word holds no value it takes H_NO_VALUE, whatever the
other words hold. -/
def Obligations.GetbRespondsADigestByteOrFaults : Prop :=
  (∀ (idx : Fin 64) (c : Command), decode c = .ok (.getb idx) ↔ c.cmd = 0x7000 ||| BitVec.ofNat 16 idx.val) ∧
  ∀ (idx : Fin 64) (s : State),
    (s.hval[idx.val / 8] = true → ∃ t, exec (.getb idx) s = .next t ∧
      Responded ((s.h[idx.val / 8].extractLsb' (56 - 8 * (idx.val % 8)) 8).setWidth 64) s t ∧
      exec (.getb idx) t = .next t) ∧
    (s.hval[idx.val / 8] = false → ∃ t, exec (.getb idx) s = .next t ∧ FaultTaken .hNoValue s t)

/-- R90, R44: DES puts byte 8i+j of the block in bits 63-8j to 56-8j of word i. -/
def Obligations.DesIsBigEndian : Prop :=
  ∀ (mb : BlockBytes) (i : Fin 16),
    (∀ (j : Nat) (h : j < 8), (des mb)[i.val].extractLsb' (56 - 8 * j) 8 = mb[8 * i.val + j]) ∧
    (des mb)[i.val].toNat =
      mb[8 * i.val].toNat * 2 ^ 56 + mb[8 * i.val + 1].toNat * 2 ^ 48 + mb[8 * i.val + 2].toNat * 2 ^ 40 +
        mb[8 * i.val + 3].toNat * 2 ^ 32 + mb[8 * i.val + 4].toNat * 2 ^ 24 + mb[8 * i.val + 5].toNat * 2 ^ 16 +
        mb[8 * i.val + 6].toNat * 2 ^ 8 + mb[8 * i.val + 7].toNat

/-- R90, R106: SERW undoes DES and DES undoes SERW, so DES is a bijection. -/
def Obligations.DesAndSerwAreInverse : Prop :=
  (∀ m : MessageBlock,
    des (Vector.ofFn fun k : Fin 128 => (serw m[k.val / 8])[k.val % 8]) = m) ∧
  (∀ mb : BlockBytes,
    (Vector.ofFn fun k : Fin 128 => (serw (des mb)[k.val / 8])[k.val % 8]) = mb)

/-! ### The datapath (40_functions.md R73 to R82) -/

/-- R73, R75, R76: addition wraps modulo 2^64; rotation moves bit (i + n) mod 64 to bit i; the shift is floor division by a
power of 2. -/
def Obligations.AddRotateShiftAreExact : Prop :=
  (∀ a b : Word, (add64 a b).toNat = (a.toNat + b.toNat) % 2 ^ 64) ∧
  (∀ (x : Word) (n i : Nat), 0 < n → n < 64 → i < 64 → (rotr x n).getLsbD i = x.getLsbD ((i + n) % 64)) ∧
  (∀ (x : Word) (n : Nat), 0 < n → n < 64 → (shr x n).toNat = x.toNat / 2 ^ n)

/-- R77 to R80: the four sigma functions, bit by bit: an exclusive or of three bits of the operand, the shifted one absent
where the shift fills with zero. -/
def Obligations.SigmaFunctionsBitByBit : Prop :=
  ∀ (x : Word) (i : Nat), i < 64 →
    ((sigma0 x).getLsbD i =
      ((x.getLsbD ((i + 1) % 64) ^^ x.getLsbD ((i + 8) % 64)) ^^ (decide (i + 7 < 64) && x.getLsbD (i + 7)))) ∧
    ((sigma1 x).getLsbD i =
      ((x.getLsbD ((i + 19) % 64) ^^ x.getLsbD ((i + 61) % 64)) ^^ (decide (i + 6 < 64) && x.getLsbD (i + 6)))) ∧
    ((bigSigma0 x).getLsbD i =
      ((x.getLsbD ((i + 28) % 64) ^^ x.getLsbD ((i + 34) % 64)) ^^ x.getLsbD ((i + 39) % 64))) ∧
    ((bigSigma1 x).getLsbD i =
      ((x.getLsbD ((i + 14) % 64) ^^ x.getLsbD ((i + 18) % 64)) ^^ x.getLsbD ((i + 41) % 64)))

/-- R81, R82: each bit of Ch is f's where e's is 1 and g's where it is 0; each bit of Maj is the majority of the three. -/
def Obligations.ChChoosesAndMajIsTheMajority : Prop :=
  ∀ (x y z : Word) (i : Nat), i < 64 →
    (ch x y z).getLsbD i = (if x.getLsbD i = true then y.getLsbD i else z.getLsbD i) ∧
    ((maj x y z).getLsbD i = true ↔
      2 ≤ (x.getLsbD i).toNat + (y.getLsbD i).toNat + (z.getLsbD i).toNat)

/-! ### The compression function (43_compression.md R95 to R103) -/

/-- 10_state.md R38: there are 80 round constants, and K[t] is the first 64 bits of the fractional part of the cube root of the
(t+1)-th prime: the root, taken to 64 bits behind the point, without its whole part. The values are log 13's. -/
def Obligations.RoundConstantsAreTheCubeRootsOfPrimes : Prop :=
  roundConstants.length = 80 ∧
  ∀ t : Nat, t < 80 → roundConstants[t]? = some (roundConstant t) ∧
    ∃ root : Nat, root ^ 3 ≤ Nat.nth Nat.Prime t * 2 ^ 192 ∧ Nat.nth Nat.Prime t * 2 ^ 192 < (root + 1) ^ 3 ∧
      (roundConstant t).toNat = root % 2 ^ 64

/-- R96, R97: the schedule has 80 words, the first 16 are the block's, each later one follows the recurrence; an all-zero
block gives 80 zero words. -/
def Obligations.ScheduleFollowsTheRecurrence : Prop :=
  schedule (Vector.replicate 16 0) = List.replicate 80 0 ∧
  ∀ m : MessageBlock, (schedule m).length = 80 ∧
    (∀ t : Fin 16, (schedule m)[t.val]? = some m[t.val]) ∧
    (∀ t : Nat, 16 ≤ t → t < 80 →
      (schedule m)[t]? = some
        ((schedule m).getD (t - 16) 0 + sigma0 ((schedule m).getD (t - 15) 0) +
          (schedule m).getD (t - 7) 0 + sigma1 ((schedule m).getD (t - 2) 0)))

/-- R98: any 16-word window that starts as the block and shifts as R98 says holds W[t] in X[0] at round t for every t in
0..79, and W[t..t+15] at round t up to 64; and the compression function that reads its window gives the same as the one
that reads the 80-word schedule. -/
def Obligations.WindowSchedulerIsEquivalent : Prop :=
  ∀ (hin : HashState) (m : MessageBlock),
    (∀ x : Nat → MessageBlock, x 0 = m →
      (∀ (t j : Nat) (h : j < 15), (x (t + 1))[j] = (x t)[j + 1]) →
      (∀ t : Nat, (x (t + 1))[15] = (x t)[0] + sigma0 (x t)[1] + (x t)[9] + sigma1 (x t)[14]) →
        (∀ t : Nat, t < 80 → (schedule m)[t]? = some (x t)[0]) ∧
        (∀ t : Nat, t ≤ 64 → ∀ j : Fin 16, (schedule m)[t + j.val]? = some (x t)[j.val])) ∧
    compressFWindow hin m = compressF hin m

/-- R95, R99 to R102: any words W that follow R96 and R97, and any run of working variables that is loaded from Hin and
follows the round equations for t = 0, …, 79, give COMPRESSF by feed-forward. -/
def Obligations.CompressionFunctionIsTheEightyRounds : Prop :=
  ∀ (hin : HashState) (m : MessageBlock) (w : Nat → Word) (v : Nat → Working),
    (∀ t : Fin 16, w t.val = m[t.val]) →
    (∀ t : Nat, 16 ≤ t → t < 80 → w t = w (t - 16) + sigma0 (w (t - 15)) + w (t - 7) + sigma1 (w (t - 2))) →
    v 0 = { a := hin[0], b := hin[1], c := hin[2], d := hin[3], e := hin[4], f := hin[5], g := hin[6], h := hin[7] } →
    (∀ t : Nat, t < 80 →
      (v (t + 1)).a = ((v t).h + bigSigma1 (v t).e + ch (v t).e (v t).f (v t).g + roundConstant t + w t) +
        (bigSigma0 (v t).a + maj (v t).a (v t).b (v t).c) ∧
      (v (t + 1)).b = (v t).a ∧ (v (t + 1)).c = (v t).b ∧ (v (t + 1)).d = (v t).c ∧
      (v (t + 1)).e = (v t).d + ((v t).h + bigSigma1 (v t).e + ch (v t).e (v t).f (v t).g + roundConstant t + w t) ∧
      (v (t + 1)).f = (v t).e ∧ (v (t + 1)).g = (v t).f ∧ (v (t + 1)).h = (v t).g) →
    compressF hin m =
      #v[hin[0] + (v 80).a, hin[1] + (v 80).b, hin[2] + (v 80).c, hin[3] + (v 80).d,
         hin[4] + (v 80).e, hin[5] + (v 80).f, hin[6] + (v 80).g, hin[7] + (v 80).h]

/-- R103, R128, R129, R131, R27: COMPRESS. With every hash word and every block byte holding a value, H becomes
COMPRESSF(H, DES(MB)), HVAL stays all 1, the block is consumed and there is no response; H_NO_VALUE comes before
BLOCK_INCOMPLETE, and a COMPRESS that faults changes neither H nor the block buffer. A second COMPRESS straight after
one takes BLOCK_INCOMPLETE. -/
def Obligations.CompressFoldsTheBlockOrFaults : Prop :=
  (∀ c : Command, decode c = .ok .compress ↔ c.cmd = 0x6000) ∧
  ∀ s : State,
    ((∀ i : Fin 8, s.hval[i.val] = true) → (∀ k : Fin 128, s.mbv[k.val] = true) →
      ∃ t, exec .compress s = .next t ∧
        t.h = compressF s.h (des s.mb) ∧ (∀ i : Fin 8, t.hval[i.val] = true) ∧
        (∀ k : Fin 128, t.mbv[k.val] = false) ∧ t.bptr = 0 ∧ t.rdata = none ∧
        SameFault s t ∧ SamePending s t ∧
        ∃ u, exec .compress t = .next u ∧ FaultTaken .blockIncomplete t u) ∧
    ((∃ i : Fin 8, s.hval[i.val] = false) →
      ∃ t, exec .compress s = .next t ∧ FaultTaken .hNoValue s t) ∧
    ((∀ i : Fin 8, s.hval[i.val] = true) → (∃ k : Fin 128, s.mbv[k.val] = false) →
      ∃ t, exec .compress s = .next t ∧ FaultTaken .blockIncomplete s t)

/-- R55, R104: n times (load a block, COMPRESS) from a hash state V leaves COMPRESSF folded over the blocks, in order, in a
clean state. -/
def Obligations.BlocksChainThroughCompress : Prop :=
  ∀ (blocks : List MessageBlock) (v : HashState) (s : State), CleanState s v → ∃ r,
    commandSteps (blocks.flatMap fun m => loadwCommands m ++ [encode .compress]) s = .next r ∧
      CleanState r.final (blocks.foldl compressF v) ∧ r.responses.all (fun x => x.isNone) = true

/-! ### Faults and reset (60_exceptions.md, 70_reset_and_hazards.md) -/

/-- R132: a command that faults an engine that was not faulted changes FAULT and FCAUSE and gives no response, and changes
nothing else; the cause it records is one of the four. -/
def Obligations.FaultEntryChangesNothingElse : Prop :=
  ∀ (c : Command) (s t : State), s.fault = false → commandStep c s = .next t → t.fault = true →
    ∃ cause, cause ≠ .none ∧ FaultTaken cause s t

/-- R127 to R131: which fault a command raises on an engine that is not faulted, each cause exactly when its rule says, in the
priority of R131. -/
def Obligations.EachFaultCauseExactlyWhenItsRuleSays : Prop :=
  ∀ (c : Command) (s : State), s.fault = false → ∃ t, commandStep c s = .next t ∧
    ((t.fault = true ∧ t.fcause = .illegalCmd) ↔ ∃ e, decode c = .error e) ∧
    ((t.fault = true ∧ t.fcause = .hNoValue) ↔
      (∃ idx, decode c = .ok (.geth idx) ∧ s.hval[idx.val] = false) ∨
      (∃ idx, decode c = .ok (.getb idx) ∧ s.hval[idx.val / 8] = false) ∨
      (decode c = .ok .compress ∧ ∃ i : Fin 8, s.hval[i.val] = false)) ∧
    ((t.fault = true ∧ t.fcause = .blockIncomplete) ↔
      decode c = .ok .compress ∧ (∀ i : Fin 8, s.hval[i.val] = true) ∧ ∃ k : Fin 128, s.mbv[k.val] = false) ∧
    ((t.fault = true ∧ t.fcause = .blockOverflow) ↔ (∃ b, decode c = .ok (.pushb b)) ∧ s.bptr = 128) ∧
    (t.fault = true → t.fcause ≠ .none)

/-- R133: while FAULT = 1 every command but GETS has no effect and responds none; GETS responds and shows FAULT = 1 and the
cause; no command clears FAULT; and a launch that ends faulted is a fault outcome. -/
def Obligations.FaultedEngineAnswersOnlyGets : Prop :=
  (∀ (c : Command) (s : State), s.fault = true → ∃ t, commandStep c s = .next t ∧
    SameHash s t ∧ SameBlock s t ∧ SameFault s t ∧ SamePending s t ∧
    (c.cmd ≠ 0x8000 → t.rdata = none) ∧
    (c.cmd = 0x8000 → ∃ v, t.rdata = some v ∧ v.getLsbD 16 = true ∧ v.extractLsb' 20 4 = causeCode s.fcause)) ∧
  (∀ (issued : List Issued) (e : Engine) (r : LaunchResult), (∀ i ∈ issued, i.host = e.host) →
    issueAndPerform (issued.map Issued.command) e.state = .next r →
      (r.final.fault = true → launch issued e = .fault (launchFault r.final.fcause)) ∧
      (r.final.fault = false → launch issued e = .next r))

/-- R134: no sequence of commands takes a second fault: FAULT stays and FCAUSE keeps the first cause. -/
def Obligations.FirstFaultCauseIsKept : Prop :=
  ∀ (cs : List Command) (s : State), s.fault = true → ∃ r, commandSteps cs s = .next r ∧
    r.final.fault = true ∧ r.final.fcause = s.fcause ∧ SameHash s r.final ∧ SameBlock s r.final

/-- R143, R144: the reset event, in whatever state, faulted or not, gives a state in which nothing holds a value, there is no
fault, STATUS reads 0 and there is no response; and only it leaves the faulted state. That the later inputs stay issued is
the model's choice (log 12). -/
def Obligations.ResetEventGivesTheResetState : Prop :=
  (∀ (s : State) (rest : List Input), s.pending = .reset :: rest → ∃ t, step s = .next t ∧
    ResetState t ∧ status t = 0 ∧ t.rdata = none ∧ t.pending = rest) ∧
  (∀ s t : State, s.fault = true → step s = .next t → t.fault = false → ∃ rest, s.pending = .reset :: rest)

/-- R144: the machine right after reset. -/
def Obligations.ResetHoldsNothing : Prop :=
  ResetState State.reset ∧ status State.reset = 0 ∧ State.reset.rdata = none

/-- R34: the access matrix, as a frame over all commands: what a command is not said to write, it leaves, SETH every word but
its own, PUSHB every byte but that at BPTR, SETW every byte but the eight of its word; and FAULT and FCAUSE change only by
a fault, which changes nothing else. MB keeps its bytes under CLRB and COMPRESS (the model's; D37 says
they are not readable). -/
def Obligations.AccessMatrixFrame : Prop :=
  ∀ (i : Instr) (s t : State), exec i s = .next t →
    SamePending s t ∧
    (i.mnemonic ≠ .init → i.mnemonic ≠ .seth → i.mnemonic ≠ .compress → SameHash s t) ∧
    (i.mnemonic = .compress → t.hval = s.hval) ∧
    (∀ idx value, i = .seth idx value →
      ∀ j : Fin 8, j ≠ idx → t.h[j.val] = s.h[j.val] ∧ t.hval[j.val] = s.hval[j.val]) ∧
    (∀ byte, i = .pushb byte →
      ∀ k : Fin 128, k.val ≠ s.bptr.toNat → t.mb[k.val] = s.mb[k.val] ∧ t.mbv[k.val] = s.mbv[k.val]) ∧
    (∀ idx value, i = .setw idx value →
      ∀ k : Fin 128, k.val / 8 ≠ idx.val → t.mb[k.val] = s.mb[k.val] ∧ t.mbv[k.val] = s.mbv[k.val]) ∧
    (i.mnemonic ≠ .pushb → i.mnemonic ≠ .setw → t.mb = s.mb) ∧
    (i.mnemonic ≠ .pushb → i.mnemonic ≠ .setw → i.mnemonic ≠ .clrb → i.mnemonic ≠ .compress → t.mbv = s.mbv) ∧
    (i.mnemonic ≠ .pushb → i.mnemonic ≠ .clrb → i.mnemonic ≠ .compress → t.bptr = s.bptr) ∧
    (SameFault s t ∨ ∃ cause, FaultTaken cause s t)

/-- R51: INIT, SETH, SETW and CLRB are idempotent; a successful GETH, GETB or GETS writes nothing and repeats its response;
PUSHB advances BPTR; COMPRESS consumes the block. -/
def Obligations.IdempotentCommandsAndSideEffects : Prop :=
  ∀ (i : Instr) (s t : State), exec i s = .next t →
    ((i.mnemonic = .init ∨ i.mnemonic = .seth ∨ i.mnemonic = .setw ∨ i.mnemonic = .clrb) → exec i t = .next t) ∧
    ((i.mnemonic = .geth ∨ i.mnemonic = .getb ∨ i.mnemonic = .gets) → t.rdata.isSome = true →
      exec i t = .next t ∧ t = { s with rdata := t.rdata }) ∧
    ((i.mnemonic = .geth ∨ i.mnemonic = .getb) → t.rdata = none → t.fault = true) ∧
    (i.mnemonic = .pushb → s.fault = false → t.fault = false → t.bptr = s.bptr + 1) ∧
    (i.mnemonic = .compress → s.fault = false → t.fault = false →
      ∃ u, exec .compress t = .next u ∧ FaultTaken .blockIncomplete t u)

/-! ### Whole-machine statements -/

/-- An invariant every step keeps (R26, R25, R29): BPTR is 0 to 128, every byte already pushed holds a value, and FCAUSE is
NONE exactly while FAULT = 0. -/
def Obligations.EveryStepKeepsTheInvariant : Prop :=
  ∀ s t : State, Inv s → step s = .next t → Inv t

/-- The invariant holds right after reset. -/
def Obligations.InvariantHoldsAtReset : Prop := Inv State.reset

/-- R16, R22, R25, R41: what H and MB hold where no valid bit is set is never observed: two engines that agree on all that holds
a value step to engines that agree, with the same response. So the model's reset words (logs 1 and 2) cannot be seen. -/
def Obligations.ContentsWithoutValueAreNeverObserved : Prop :=
  ∀ s t s' : State, SameValues s t → step s = .next s' → ∃ t', step t = .next t' ∧ SameValues s' t'

/-- R60, R140: a step of one engine of a platform neither changes nor depends on any other. -/
def Obligations.EnginesAreIndependent : Prop :=
  (∀ (n : Nat) (p q : Platform), platformStep n p = .next q →
    q.length = p.length ∧ ∀ m, m ≠ n → q[m]? = p[m]?) ∧
  (∀ (n : Nat) (p q : Platform) (e : Engine), p[n]? = some e → q[n]? = some e →
    ∃ p' q' t, platformStep n p = .next p' ∧ platformStep n q = .next q' ∧ step e.state = .next t ∧
      p'[n]? = some { e with state := t } ∧ q'[n]? = some { e with state := t })

/-- R21, D42: each engine serves exactly one HOST. Commands of two HOSTs in a launch are refused, and so are those of any
HOST but the engine's own; launches one after another on an engine succeed only where its own HOST issued every command
of each; on a platform another HOST's commands are refused, and no event changes which HOST an engine serves. -/
def Obligations.TwoHostsAreRefused : Prop :=
  (∀ (issued : List Issued) (e : Engine), (∃ i ∈ issued, ∃ j ∈ issued, i.host ≠ j.host) →
    launch issued e = .refused .twoHosts) ∧
  (∀ (issued : List Issued) (e : Engine), (∃ i ∈ issued, i.host ≠ e.host) → launch issued e = .refused .twoHosts) ∧
  (∀ (ls : List (List Issued)) (e : Engine) (rs : List LaunchResult), launches ls e = .next rs →
    rs.length = ls.length ∧ ∀ issued ∈ ls, ∀ i ∈ issued, i.host = e.host) ∧
  (∀ (p : Params) (host n : Nat) (cs : List Command) (engines : Platform) (e : Engine), engines[n]? = some e →
    (host ≠ e.host → platformEvent p (.host host n cs) engines = .refused .twoHosts) ∧
    (host = e.host → ∃ after, platformEvent p (.host host n cs) engines = .next after ∧
      after[n]? = some { e with state := { e.state with pending := e.state.pending ++ cs.map Input.command } })) ∧
  (∀ (p : Params) (event : PlatformEvent) (engines after : Platform), platformEvent p event engines = .next after →
    after.map Engine.host = engines.map Engine.host)

/-! ### The HOST's macros and the Message Assembler (45_host_pseudo.md) -/

/-- R109: BLOCK of n bytes, at most 128, from BPTR = 0 on an engine that is not faulted: MB[k] = bk with its valid bit for
k < n, the rest unchanged, BPTR = n; for n = 128, DES(MB) is the 16 big-endian words of the bytes. -/
def Obligations.BlockMacroLoadsItsBytes : Prop :=
  ∀ (bytes : List Byte) (s : State), s.fault = false → s.bptr = 0 → bytes.length ≤ 128 → ∃ r,
    commandSteps (blockCommands bytes) s = .next r ∧
      (∀ k : Fin 128, k.val < bytes.length →
        bytes[k.val]? = some r.final.mb[k.val] ∧ r.final.mbv[k.val] = true) ∧
      (∀ k : Fin 128, bytes.length ≤ k.val →
        r.final.mb[k.val] = s.mb[k.val] ∧ r.final.mbv[k.val] = s.mbv[k.val]) ∧
      r.final.bptr.toNat = bytes.length ∧ SameHash s r.final ∧ SameFault s r.final ∧
      (bytes.length = 128 → des r.final.mb = des (toBlockBytes bytes))

/-- R110: LOADW leaves DES(MB)[i] = wi for all i, every byte holding a value, and BPTR unchanged. -/
def Obligations.LoadwMacroLoadsItsWords : Prop :=
  ∀ (words : MessageBlock) (s : State), s.fault = false → ∃ r,
    commandSteps (loadwCommands words) s = .next r ∧ des r.final.mb = words ∧
      (∀ k : Fin 128, r.final.mbv[k.val] = true) ∧ r.final.bptr = s.bptr ∧
      SameHash s r.final ∧ SameFault s r.final

/-- R111, R112: on an engine whose hash state holds values, DIGEST responds the bytes of SER(H) and DIGESTW the words of H, in
order, and neither changes the hash state, the block buffer or the fault state. -/
def Obligations.DigestMacrosReadTheHashState : Prop :=
  ∀ s : State, s.fault = false → (∀ i : Fin 8, s.hval[i.val] = true) →
    (∃ r, commandSteps digestCommands s = .next r ∧
      r.responses = (ser s.h).toList.map (fun b => some (b.setWidth 64)) ∧
      SameHash s r.final ∧ SameBlock s r.final ∧ SameFault s r.final) ∧
    (∃ r, commandSteps digestwCommands s = .next r ∧ r.responses = s.h.toList.map some ∧
      SameHash s r.final ∧ SameBlock s r.final ∧ SameFault s r.final)

/-- R113 to R118, R122, R89: HASH of an L-byte message with 8L < 2^64, launched by its HOST on any engine that is not faulted with
BPTR = 0, whatever else it holds and for either threshold, ends without a fault in a clean state whose H is COMPRESSF
folded over the padded blocks from IV. The pieces of those blocks are the message's bytes: chunk j is bytes 128j to
128j + 127 (R114), and so are the bytes of block j; the final buffer is the last R bytes, 0x80 at R, and zeros to 128 bytes
(R115); the length word is 8L. "Not faulted" and
BPTR = 0 are of the state in which HASH's first command is performed, all that was issued before it done (R54). -/
def Obligations.HashComputesTheMessageDigest : Prop :=
  ∀ (p : Params) (src : List Byte),
    (∀ j : Nat, j < src.length / 128 → (fullChunk src j).length = 128 ∧
      (∀ k : Nat, k < 128 → (fullChunk src j)[k]? = src[128 * j + k]?) ∧
      ∃ m, (messageBlocks p.padOneBlockMaxR src)[j]? = some m ∧
        ∀ k : Fin 128, some (serw m[k.val / 8])[k.val % 8] = src[128 * j + k.val]?) ∧
    ((finalBuffer src).length = 128 ∧
      (∀ k : Nat, k < src.length % 128 → (finalBuffer src)[k]? = src[128 * (src.length / 128) + k]?) ∧
      (finalBuffer src)[src.length % 128]? = some 0x80 ∧
      ∀ k : Nat, src.length % 128 < k → k < 128 → (finalBuffer src)[k]? = some 0) ∧
    (8 * src.length < 2 ^ 64 → (lengthWord src).toNat = 8 * src.length) ∧
    ∀ (e : Engine) (s : State), drain e.state = .next s → s.fault = false → s.bptr = 0 → 8 * src.length < 2 ^ 64 → ∃ r,
      launchHash p e.host (some src) src.length e = .next r ∧
        CleanState r.final (messageDigest p.padOneBlockMaxR src)

/-- R113 (a) and (b), R118, R124: a HASH outside its preconditions is refused; outside (c), on a faulted engine, that it is
refused is the model's choice (log 17). A HASH of a HOST the engine does not serve is refused too (R21). That a broken
precondition names the refusal whichever HOST issues it, before the HOST is checked, is the model's choice (log 9). -/
def Obligations.HashOutsideItsPreconditionsIsRefused : Prop :=
  ∀ (p : Params) (host : Nat) (src : List Byte) (len : Nat) (e : Engine) (s : State), drain e.state = .next s →
    (s.fault = true → ∀ source, launchHash p host source len e = .refused .engineFaulted) ∧
    (s.fault = false → launchHash p host none len e = .refused .sourceUnavailable) ∧
    (s.fault = false → src.length ≠ len → launchHash p host (some src) len e = .refused .lengthMismatch) ∧
    (s.fault = false → src.length = len → 2 ^ 64 ≤ 8 * len →
      launchHash p host (some src) len e = .refused .messageTooLong) ∧
    (s.fault = false → src.length = len → 8 * len < 2 ^ 64 → host ≠ e.host →
      launchHash p host (some src) len e = .refused .twoHosts)

/-- R120: HASH issues floor(L/128) + (1 or 2) COMPRESS commands, and as many blocks are compressed. -/
def Obligations.BlockCountLawHolds : Prop :=
  ∀ (maxR : Nat) (src : List Byte),
    (hashExpansion maxR src).countP (fun c => c == encode .compress) =
      src.length / 128 + (if src.length % 128 ≤ maxR then 1 else 2) ∧
    (messageBlocks maxR src).length = src.length / 128 + (if src.length % 128 ≤ maxR then 1 else 2)

/-- R121: in the final block word 15 is 8L modulo 2^64 and word 14 is 0, whichever branch was taken, for either threshold of
R12. -/
def Obligations.LengthFieldLawHolds : Prop :=
  ∀ (p : Params) (src : List Byte), p.wf = true → ∃ m, (messageBlocks p.padOneBlockMaxR src).getLast? = some m ∧
    m[15].toNat = (8 * src.length) % 2 ^ 64 ∧ m[14] = 0

/-- R123: the two thresholds differ only where 111 bytes remain. -/
def Obligations.ThresholdsDifferOnlyAt111 : Prop :=
  (∀ src : List Byte, src.length % 128 ≠ 111 → hashExpansion 110 src = hashExpansion 111 src) ∧
  (∀ src : List Byte, src.length % 128 = 111 →
    (messageBlocks 110 src).length = (messageBlocks 111 src).length + 1)

/-- R119: the empty message is one block, 0x80 and zeros, with length field 0. -/
def Obligations.EmptyMessageIsOnePaddedBlock : Prop :=
  ∀ maxR : Nat, messageBlocks maxR [] = [#v[0x8000000000000000, 0, 0, 0, 0, 0, 0, 0, 0, 0, 0, 0, 0, 0, 0, 0]]
end

