-- ==== Sys2Proof/Laws/ByteOrder.lean ====
section
/-! SUPPORT. The big-endian conversions, bit by bit and byte by byte: packing eight bytes, unpacking a word, and that each
undoes the other on one word. -/

namespace Sys2Proof.Machine

theorem serwByte_getLsbD (v : Word) (j b : Nat) (hb : b < 8) :
    (serwByte v j).getLsbD b = v.getLsbD (56 - 8 * j + b) := by
  simp [serwByte, hb]

theorem packWord_getLsbD (b0 b1 b2 b3 b4 b5 b6 b7 : Byte) (i : Nat) (h : i < 64) :
    (packWord b0 b1 b2 b3 b4 b5 b6 b7).getLsbD i =
      if i < 8 then b7.getLsbD i else if i < 16 then b6.getLsbD (i - 8) else if i < 24 then b5.getLsbD (i - 16)
      else if i < 32 then b4.getLsbD (i - 24) else if i < 40 then b3.getLsbD (i - 32)
      else if i < 48 then b2.getLsbD (i - 40) else if i < 56 then b1.getLsbD (i - 48) else b0.getLsbD (i - 56) := by
  unfold packWord
  simp only [BitVec.getLsbD_append, Nat.sub_sub]
  split_ifs <;> first | rfl | omega

/-- Packing the bytes of a word gives the word (R106). -/
theorem packWord_serwByte (v : Word) :
    packWord (serwByte v 0) (serwByte v 1) (serwByte v 2) (serwByte v 3)
      (serwByte v 4) (serwByte v 5) (serwByte v 6) (serwByte v 7) = v := by
  apply BitVec.eq_of_getLsbD_eq
  intro i hi
  rw [packWord_getLsbD _ _ _ _ _ _ _ _ _ hi]
  split_ifs <;> (rw [serwByte_getLsbD _ _ _ (by omega)]; congr 1; omega)

/-- Byte j of eight packed bytes is the j-th of them (R90). -/
theorem serwByte_packWord (b0 b1 b2 b3 b4 b5 b6 b7 : Byte) (j : Nat) (hj : j < 8) :
    serwByte (packWord b0 b1 b2 b3 b4 b5 b6 b7) j = [b0, b1, b2, b3, b4, b5, b6, b7][j] := by
  apply BitVec.eq_of_getLsbD_eq
  intro i hi
  rw [serwByte_getLsbD _ _ _ hi, packWord_getLsbD _ _ _ _ _ _ _ _ _ (by omega)]
  interval_cases j <;> simp <;> split_ifs <;> first | rfl | omega

theorem des_get (mb : BlockBytes) (i : Nat) (hi : i < 16) :
    (des mb)[i] =
      packWord mb[8 * i] mb[8 * i + 1] mb[8 * i + 2] mb[8 * i + 3]
        mb[8 * i + 4] mb[8 * i + 5] mb[8 * i + 6] mb[8 * i + 7] := by
  simp [des]

theorem serw_get (v : Word) (j : Nat) (hj : j < 8) : (serw v)[j] = serwByte v j := by
  simp [serw]

theorem ser_get (h : HashState) (k : Nat) (hk : k < 64) :
    (ser h)[k] = serwByte h[k / 8] (k % 8) := by
  simp [ser]

end Sys2Proof.Machine
end

