-- ==== Sys2Proof/Laws/Compression.lean ====
section
/-! SUPPORT. The lemmas of the schedule and of the rounds for any number of steps. A proof about COMPRESSF should go through
these, with the number of rounds a variable: comparing two different `compressF` terms by unfolding makes Lean evaluate
80 rounds. -/

namespace Sys2Proof.Machine

theorem extendSchedule_length : ∀ (n : Nat) (w : List Word), (extendSchedule n w).length = w.length + n
  | 0, _ => rfl
  | n + 1, w => by simp [extendSchedule, extendSchedule_length n]; omega

/-- Extending a schedule leaves the words it had. -/
theorem extendSchedule_prefix :
    ∀ (n : Nat) (w : List Word) (t : Nat), t < w.length → (extendSchedule n w)[t]? = w[t]?
  | 0, _, _, _ => rfl
  | n + 1, w, t, h => by
    rw [extendSchedule, extendSchedule_prefix n _ t (by simp; omega), List.getElem?_append_left h]

/-- The rounds read only the schedule words of their own numbers (R101). -/
theorem afterRounds_congr {f g : Nat → Word} (v : Working) :
    ∀ n, (∀ t, t < n → f t = g t) → afterRounds f v n = afterRounds g v n
  | 0, _ => rfl
  | n + 1, h => by
    simp only [afterRounds]
    rw [afterRounds_congr v n (fun t ht => h t (by omega)), h n (by omega)]

theorem feedForward_afterRounds_congr (hin : HashState) (v : Working) (n : Nat) {f g : Nat → Word}
    (h : ∀ t, t < n → f t = g t) :
    feedForward hin (afterRounds f v n) = feedForward hin (afterRounds g v n) := by
  rw [afterRounds_congr v n h]

/-- COMPRESSF from the working variables its rounds end in. -/
theorem compressF_of_rounds {hin : HashState} {m : MessageBlock} {x : Working}
    (h : x = afterRounds (fun t => (schedule m).getD t 0) (loadWorking hin) 80) :
    compressF hin m = feedForward hin x := by
  subst h; rfl

end Sys2Proof.Machine
end

