-- ==== Sys2Proof/Laws/State.lean ====
section
/-! SUPPORT. One lemma for each field and each named update of State, so that no proof unfolds a record update. -/

namespace Sys2Proof.Machine

@[simp] theorem respond_h (v : Word) (s : State) : (respond v s).h = s.h := rfl
@[simp] theorem respond_hval (v : Word) (s : State) : (respond v s).hval = s.hval := rfl
@[simp] theorem respond_mb (v : Word) (s : State) : (respond v s).mb = s.mb := rfl
@[simp] theorem respond_mbv (v : Word) (s : State) : (respond v s).mbv = s.mbv := rfl
@[simp] theorem respond_bptr (v : Word) (s : State) : (respond v s).bptr = s.bptr := rfl
@[simp] theorem respond_fault (v : Word) (s : State) : (respond v s).fault = s.fault := rfl
@[simp] theorem respond_fcause (v : Word) (s : State) : (respond v s).fcause = s.fcause := rfl
@[simp] theorem respond_rdata (v : Word) (s : State) : (respond v s).rdata = some v := rfl
@[simp] theorem respond_pending (v : Word) (s : State) : (respond v s).pending = s.pending := rfl

@[simp] theorem noResponse_h (s : State) : (noResponse s).h = s.h := rfl
@[simp] theorem noResponse_hval (s : State) : (noResponse s).hval = s.hval := rfl
@[simp] theorem noResponse_mb (s : State) : (noResponse s).mb = s.mb := rfl
@[simp] theorem noResponse_mbv (s : State) : (noResponse s).mbv = s.mbv := rfl
@[simp] theorem noResponse_bptr (s : State) : (noResponse s).bptr = s.bptr := rfl
@[simp] theorem noResponse_fault (s : State) : (noResponse s).fault = s.fault := rfl
@[simp] theorem noResponse_fcause (s : State) : (noResponse s).fcause = s.fcause := rfl
@[simp] theorem noResponse_rdata (s : State) : (noResponse s).rdata = none := rfl
@[simp] theorem noResponse_pending (s : State) : (noResponse s).pending = s.pending := rfl

@[simp] theorem raise_h (c : FaultCause) (s : State) : (raise c s).h = s.h := rfl
@[simp] theorem raise_hval (c : FaultCause) (s : State) : (raise c s).hval = s.hval := rfl
@[simp] theorem raise_mb (c : FaultCause) (s : State) : (raise c s).mb = s.mb := rfl
@[simp] theorem raise_mbv (c : FaultCause) (s : State) : (raise c s).mbv = s.mbv := rfl
@[simp] theorem raise_bptr (c : FaultCause) (s : State) : (raise c s).bptr = s.bptr := rfl
@[simp] theorem raise_fault (c : FaultCause) (s : State) : (raise c s).fault = true := rfl
@[simp] theorem raise_fcause (c : FaultCause) (s : State) : (raise c s).fcause = c := rfl
@[simp] theorem raise_rdata (c : FaultCause) (s : State) : (raise c s).rdata = none := rfl
@[simp] theorem raise_pending (c : FaultCause) (s : State) : (raise c s).pending = s.pending := rfl

@[simp] theorem applyReset_h (s : State) : (applyReset s).h = State.reset.h := rfl
@[simp] theorem applyReset_hval (s : State) : (applyReset s).hval = State.reset.hval := rfl
@[simp] theorem applyReset_mb (s : State) : (applyReset s).mb = State.reset.mb := rfl
@[simp] theorem applyReset_mbv (s : State) : (applyReset s).mbv = State.reset.mbv := rfl
@[simp] theorem applyReset_bptr (s : State) : (applyReset s).bptr = State.reset.bptr := rfl
@[simp] theorem applyReset_fault (s : State) : (applyReset s).fault = State.reset.fault := rfl
@[simp] theorem applyReset_fcause (s : State) : (applyReset s).fcause = State.reset.fcause := rfl
@[simp] theorem applyReset_rdata (s : State) : (applyReset s).rdata = State.reset.rdata := rfl
@[simp] theorem applyReset_pending (s : State) : (applyReset s).pending = s.pending := rfl

@[simp] theorem writeHashState_h (v : HashState) (s : State) : (writeHashState v s).h = v := rfl
@[simp] theorem writeHashState_hval (v : HashState) (s : State) :
    (writeHashState v s).hval = Vector.replicate 8 true := rfl
@[simp] theorem writeHashState_mb (v : HashState) (s : State) : (writeHashState v s).mb = s.mb := rfl
@[simp] theorem writeHashState_mbv (v : HashState) (s : State) : (writeHashState v s).mbv = s.mbv := rfl
@[simp] theorem writeHashState_bptr (v : HashState) (s : State) : (writeHashState v s).bptr = s.bptr := rfl
@[simp] theorem writeHashState_fault (v : HashState) (s : State) : (writeHashState v s).fault = s.fault := rfl
@[simp] theorem writeHashState_fcause (v : HashState) (s : State) : (writeHashState v s).fcause = s.fcause := rfl
@[simp] theorem writeHashState_rdata (v : HashState) (s : State) : (writeHashState v s).rdata = s.rdata := rfl
@[simp] theorem writeHashState_pending (v : HashState) (s : State) : (writeHashState v s).pending = s.pending := rfl

@[simp] theorem writeHashWord_h (i : Fin 8) (v : Word) (s : State) : (writeHashWord i v s).h = s.h.set i.val v := rfl
@[simp] theorem writeHashWord_hval (i : Fin 8) (v : Word) (s : State) :
    (writeHashWord i v s).hval = s.hval.set i.val true := rfl
@[simp] theorem writeHashWord_mb (i : Fin 8) (v : Word) (s : State) : (writeHashWord i v s).mb = s.mb := rfl
@[simp] theorem writeHashWord_mbv (i : Fin 8) (v : Word) (s : State) : (writeHashWord i v s).mbv = s.mbv := rfl
@[simp] theorem writeHashWord_bptr (i : Fin 8) (v : Word) (s : State) : (writeHashWord i v s).bptr = s.bptr := rfl
@[simp] theorem writeHashWord_fault (i : Fin 8) (v : Word) (s : State) : (writeHashWord i v s).fault = s.fault := rfl
@[simp] theorem writeHashWord_fcause (i : Fin 8) (v : Word) (s : State) :
    (writeHashWord i v s).fcause = s.fcause := rfl
@[simp] theorem writeHashWord_rdata (i : Fin 8) (v : Word) (s : State) : (writeHashWord i v s).rdata = s.rdata := rfl
@[simp] theorem writeHashWord_pending (i : Fin 8) (v : Word) (s : State) :
    (writeHashWord i v s).pending = s.pending := rfl

@[simp] theorem pushByte_h (b : Byte) (s : State) : (pushByte b s).h = s.h := rfl
@[simp] theorem pushByte_hval (b : Byte) (s : State) : (pushByte b s).hval = s.hval := rfl
@[simp] theorem pushByte_mb (b : Byte) (s : State) : (pushByte b s).mb = s.mb.setIfInBounds s.bptr.toNat b := rfl
@[simp] theorem pushByte_mbv (b : Byte) (s : State) :
    (pushByte b s).mbv = s.mbv.setIfInBounds s.bptr.toNat true := rfl
@[simp] theorem pushByte_bptr (b : Byte) (s : State) : (pushByte b s).bptr = s.bptr + 1 := rfl
@[simp] theorem pushByte_fault (b : Byte) (s : State) : (pushByte b s).fault = s.fault := rfl
@[simp] theorem pushByte_fcause (b : Byte) (s : State) : (pushByte b s).fcause = s.fcause := rfl
@[simp] theorem pushByte_rdata (b : Byte) (s : State) : (pushByte b s).rdata = s.rdata := rfl
@[simp] theorem pushByte_pending (b : Byte) (s : State) : (pushByte b s).pending = s.pending := rfl

@[simp] theorem writeBlockWord_h (i : Fin 16) (v : Word) (s : State) : (writeBlockWord i v s).h = s.h := rfl
@[simp] theorem writeBlockWord_hval (i : Fin 16) (v : Word) (s : State) : (writeBlockWord i v s).hval = s.hval := rfl
@[simp] theorem writeBlockWord_mb (i : Fin 16) (v : Word) (s : State) :
    (writeBlockWord i v s).mb = bytesWithWord i v s.mb := rfl
@[simp] theorem writeBlockWord_mbv (i : Fin 16) (v : Word) (s : State) :
    (writeBlockWord i v s).mbv = validWithWord i s.mbv := rfl
@[simp] theorem writeBlockWord_bptr (i : Fin 16) (v : Word) (s : State) : (writeBlockWord i v s).bptr = s.bptr := rfl
@[simp] theorem writeBlockWord_fault (i : Fin 16) (v : Word) (s : State) :
    (writeBlockWord i v s).fault = s.fault := rfl
@[simp] theorem writeBlockWord_fcause (i : Fin 16) (v : Word) (s : State) :
    (writeBlockWord i v s).fcause = s.fcause := rfl
@[simp] theorem writeBlockWord_rdata (i : Fin 16) (v : Word) (s : State) :
    (writeBlockWord i v s).rdata = s.rdata := rfl
@[simp] theorem writeBlockWord_pending (i : Fin 16) (v : Word) (s : State) :
    (writeBlockWord i v s).pending = s.pending := rfl

@[simp] theorem clearBlock_h (s : State) : (clearBlock s).h = s.h := rfl
@[simp] theorem clearBlock_hval (s : State) : (clearBlock s).hval = s.hval := rfl
@[simp] theorem clearBlock_mb (s : State) : (clearBlock s).mb = s.mb := rfl
@[simp] theorem clearBlock_mbv (s : State) : (clearBlock s).mbv = Vector.replicate 128 false := rfl
@[simp] theorem clearBlock_bptr (s : State) : (clearBlock s).bptr = 0 := rfl
@[simp] theorem clearBlock_fault (s : State) : (clearBlock s).fault = s.fault := rfl
@[simp] theorem clearBlock_fcause (s : State) : (clearBlock s).fcause = s.fcause := rfl
@[simp] theorem clearBlock_rdata (s : State) : (clearBlock s).rdata = s.rdata := rfl
@[simp] theorem clearBlock_pending (s : State) : (clearBlock s).pending = s.pending := rfl

@[simp] theorem issueNext_h (c : Command) (s : State) : (issueNext c s).h = s.h := rfl
@[simp] theorem issueNext_hval (c : Command) (s : State) : (issueNext c s).hval = s.hval := rfl
@[simp] theorem issueNext_mb (c : Command) (s : State) : (issueNext c s).mb = s.mb := rfl
@[simp] theorem issueNext_mbv (c : Command) (s : State) : (issueNext c s).mbv = s.mbv := rfl
@[simp] theorem issueNext_bptr (c : Command) (s : State) : (issueNext c s).bptr = s.bptr := rfl
@[simp] theorem issueNext_fault (c : Command) (s : State) : (issueNext c s).fault = s.fault := rfl
@[simp] theorem issueNext_fcause (c : Command) (s : State) : (issueNext c s).fcause = s.fcause := rfl
@[simp] theorem issueNext_rdata (c : Command) (s : State) : (issueNext c s).rdata = s.rdata := rfl
@[simp] theorem issueNext_pending (c : Command) (s : State) : (issueNext c s).pending = .command c :: s.pending := rfl

@[simp] theorem issueBehind_h (l : List Input) (s : State) : (issueBehind l s).h = s.h := rfl
@[simp] theorem issueBehind_hval (l : List Input) (s : State) : (issueBehind l s).hval = s.hval := rfl
@[simp] theorem issueBehind_mb (l : List Input) (s : State) : (issueBehind l s).mb = s.mb := rfl
@[simp] theorem issueBehind_mbv (l : List Input) (s : State) : (issueBehind l s).mbv = s.mbv := rfl
@[simp] theorem issueBehind_bptr (l : List Input) (s : State) : (issueBehind l s).bptr = s.bptr := rfl
@[simp] theorem issueBehind_fault (l : List Input) (s : State) : (issueBehind l s).fault = s.fault := rfl
@[simp] theorem issueBehind_fcause (l : List Input) (s : State) : (issueBehind l s).fcause = s.fcause := rfl
@[simp] theorem issueBehind_rdata (l : List Input) (s : State) : (issueBehind l s).rdata = s.rdata := rfl
@[simp] theorem issueBehind_pending (l : List Input) (s : State) :
    (issueBehind l s).pending = s.pending ++ l := rfl

end Sys2Proof.Machine
end

