-- ==== Sys2Proof/Laws/Ops.lean ====
section
/-! SUPPORT. What each shared operation does, said once: indexed reads after each write, and the response and fault entry in
the terms claims use (Safety.lean). -/

namespace Sys2Proof.Machine

/-! ### Reads after writes -/

theorem writeHashWord_h_same (i : Fin 8) (v : Word) (s : State) : (writeHashWord i v s).h[i.val] = v := by
  simp

theorem writeHashWord_h_other (i j : Fin 8) (v : Word) (s : State) (hne : j ≠ i) :
    (writeHashWord i v s).h[j.val] = s.h[j.val] := by
  have : i.val ≠ j.val := fun h => hne (Fin.ext h.symm)
  simp [this]

theorem writeHashWord_hval_get (i j : Fin 8) (v : Word) (s : State) :
    (writeHashWord i v s).hval[j.val] = if j = i then true else s.hval[j.val] := by
  by_cases h : j = i
  · subst h; simp
  · have : i.val ≠ j.val := fun h' => h (Fin.ext h'.symm)
    simp [this, h]

theorem pushByte_mb_get (b : Byte) (s : State) (k : Fin 128) :
    (pushByte b s).mb[k.val] = if s.bptr.toNat = k.val then b else s.mb[k.val] := by
  simp [Vector.getElem_setIfInBounds]

theorem pushByte_mbv_get (b : Byte) (s : State) (k : Fin 128) :
    (pushByte b s).mbv[k.val] = if s.bptr.toNat = k.val then true else s.mbv[k.val] := by
  simp [Vector.getElem_setIfInBounds]

theorem pushByte_bptr_toNat (b : Byte) (s : State) (h : s.bptr.toNat < 128) :
    (pushByte b s).bptr.toNat = s.bptr.toNat + 1 := by
  simp only [pushByte_bptr, BitVec.toNat_add]
  have : (1 : BitVec 8).toNat = 1 := rfl
  omega

theorem bytesWithWord_get (i : Fin 16) (v : Word) (mb : BlockBytes) (k : Nat) (hk : k < 128) :
    (bytesWithWord i v mb)[k] = if k / 8 = i.val then serwByte v (k % 8) else mb[k] := by
  unfold bytesWithWord
  simp only [Vector.getElem_set]
  split_ifs <;> first | rfl | (exfalso; omega) | (congr 1; omega)

theorem validWithWord_get (i : Fin 16) (mbv : Vector Bool 128) (k : Nat) (hk : k < 128) :
    (validWithWord i mbv)[k] = if k / 8 = i.val then true else mbv[k] := by
  unfold validWithWord
  simp only [Vector.getElem_set]
  split_ifs <;> first | rfl | (exfalso; omega)

theorem writeBlockWord_mb_get (i : Fin 16) (v : Word) (s : State) (k : Fin 128) :
    (writeBlockWord i v s).mb[k.val] = if k.val / 8 = i.val then serwByte v (k.val % 8) else s.mb[k.val] :=
  bytesWithWord_get i v s.mb k.val k.isLt

theorem writeBlockWord_mbv_get (i : Fin 16) (v : Word) (s : State) (k : Fin 128) :
    (writeBlockWord i v s).mbv[k.val] = if k.val / 8 = i.val then true else s.mbv[k.val] :=
  validWithWord_get i s.mbv k.val k.isLt

theorem clearBlock_mbv_get (s : State) (k : Fin 128) : (clearBlock s).mbv[k.val] = false := by simp

theorem writeHashState_hval_get (v : HashState) (s : State) (i : Fin 8) :
    (writeHashState v s).hval[i.val] = true := by simp

/-! ### Response and fault entry -/

theorem respond_responded (v : Word) (s : State) : Responded v s (respond v s) :=
  ⟨rfl, ⟨rfl, rfl⟩, ⟨rfl, rfl, rfl⟩, ⟨rfl, rfl⟩, rfl⟩

theorem raise_faultTaken (c : FaultCause) (s : State) : FaultTaken c s (raise c s) :=
  ⟨rfl, rfl, rfl, ⟨rfl, rfl⟩, ⟨rfl, rfl, rfl⟩, rfl⟩

end Sys2Proof.Machine
end

