-- ==== Sys2Proof/Laws/Step.lean ====
section
/-! SUPPORT. What a decode, an instruction, a command step and a step can do, said once; later proofs cite these and do not
unfold the step. -/

namespace Sys2Proof.Machine

/-- A decoded command comes from a row of the opcode map. -/
theorem decode_ok_row {c : Command} {i : Instr} (h : decode c = .ok i) :
    ∃ r ∈ opcodeMap, rowSpells r c.cmd = true ∧ i = instrOf r.mnemonic c := by
  unfold decode at h
  split at h
  next r hr =>
    refine ⟨r, List.mem_of_find?_eq_some hr, ?_, ?_⟩
    · simpa using List.find?_some hr
    · simpa using h.symm
  next => simp at h

theorem instrOf_mnemonic (m : Mnemonic) (c : Command) : (instrOf m c).mnemonic = m := by
  cases m <;> rfl

/-! ### One equation for each command and case -/

theorem execGeth_of_valid {idx : Fin 8} {s : State} (h : s.hval[idx.val] = true) :
    exec (.geth idx) s = .next (respond s.h[idx.val] s) := by
  rw [exec, execGeth, if_pos h]

theorem execGeth_of_invalid {idx : Fin 8} {s : State} (h : ¬ s.hval[idx.val] = true) :
    exec (.geth idx) s = .next (raise .hNoValue s) := by
  rw [exec, execGeth, if_neg h]

theorem execGetb_of_valid {idx : Fin 64} {s : State} (h : s.hval[(digestWordIndex idx).val] = true) :
    exec (.getb idx) s =
      .next (respond ((serwByte s.h[(digestWordIndex idx).val] (digestByteIndex idx).val).setWidth 64) s) := by
  rw [exec, execGetb, if_pos h]

theorem execGetb_of_invalid {idx : Fin 64} {s : State} (h : ¬ s.hval[(digestWordIndex idx).val] = true) :
    exec (.getb idx) s = .next (raise .hNoValue s) := by
  rw [exec, execGetb, if_neg h]

theorem execPushb_of_full {b : Byte} {s : State} (h : s.bptr = 128) :
    exec (.pushb b) s = .next (raise .blockOverflow s) := by
  rw [exec, execPushb, if_pos h]

theorem execPushb_of_room {b : Byte} {s : State} (h : ¬ s.bptr = 128) :
    exec (.pushb b) s = .next (noResponse (pushByte b s)) := by
  rw [exec, execPushb, if_neg h]

/-- The new hash state is a variable here, so that no proof compares two COMPRESSF terms by unfolding them. -/
theorem execCompress_of_ready {s : State} {v : HashState} (hv : compressF s.h (des s.mb) = v)
    (h : HashAllValid s) (hb : BlockComplete s) :
    exec .compress s = .next (noResponse (clearBlock (writeHashState v s))) := by
  rw [exec, execCompress, if_pos h, if_pos hb, hv]

theorem execCompress_of_incomplete {s : State} (h : HashAllValid s) (hb : ¬ BlockComplete s) :
    exec .compress s = .next (raise .blockIncomplete s) := by
  rw [exec, execCompress, if_pos h, if_neg hb]

theorem execCompress_of_noValue {s : State} (h : ¬ HashAllValid s) :
    exec .compress s = .next (raise .hNoValue s) := by
  rw [exec, execCompress, if_neg h]

/-! ### Everything an instruction, a command step and a step can do -/

/-- Every instruction answers a next state: it responds and writes nothing, or takes a fault with a real cause, or writes
and gives no response. -/
theorem exec_cases (i : Instr) (s : State) :
    (∃ v, exec i s = .next (respond v s)) ∨
    (∃ c, c ≠ .none ∧ exec i s = .next (raise c s)) ∨
    (∃ u, exec i s = .next (noResponse u) ∧ SameFault s u ∧ SamePending s u) := by
  cases i with
  | init => exact .inr (.inr ⟨writeHashState iv s, rfl, ⟨rfl, rfl⟩, rfl⟩)
  | seth idx value => exact .inr (.inr ⟨writeHashWord idx value s, rfl, ⟨rfl, rfl⟩, rfl⟩)
  | geth idx =>
    by_cases h : s.hval[idx.val] = true
    · exact .inl ⟨_, execGeth_of_valid h⟩
    · exact .inr (.inl ⟨.hNoValue, by decide, execGeth_of_invalid h⟩)
  | pushb byte =>
    by_cases h : s.bptr = 128
    · exact .inr (.inl ⟨.blockOverflow, by decide, execPushb_of_full h⟩)
    · exact .inr (.inr ⟨pushByte byte s, execPushb_of_room h, ⟨rfl, rfl⟩, rfl⟩)
  | setw idx value => exact .inr (.inr ⟨writeBlockWord idx value s, rfl, ⟨rfl, rfl⟩, rfl⟩)
  | compress =>
    by_cases h : HashAllValid s
    · by_cases hb : BlockComplete s
      · obtain ⟨v, hv⟩ : ∃ v, compressF s.h (des s.mb) = v := ⟨_, rfl⟩
        exact .inr (.inr ⟨_, execCompress_of_ready hv h hb, ⟨rfl, rfl⟩, rfl⟩)
      · exact .inr (.inl ⟨.blockIncomplete, by decide, execCompress_of_incomplete h hb⟩)
    · exact .inr (.inl ⟨.hNoValue, by decide, execCompress_of_noValue h⟩)
  | getb idx =>
    by_cases h : s.hval[(digestWordIndex idx).val] = true
    · exact .inl ⟨_, execGetb_of_valid h⟩
    · exact .inr (.inl ⟨.hNoValue, by decide, execGetb_of_invalid h⟩)
  | gets => exact .inl ⟨status s, rfl⟩
  | clrb => exact .inr (.inr ⟨clearBlock s, rfl, ⟨rfl, rfl⟩, rfl⟩)

theorem exec_next (i : Instr) (s : State) : ∃ t, exec i s = .next t := by
  rcases exec_cases i s with ⟨v, h⟩ | ⟨c, -, h⟩ | ⟨u, h, -⟩
  · exact ⟨_, h⟩
  · exact ⟨_, h⟩
  · exact ⟨_, h⟩

/-- The command step by its four cases (R84). -/
theorem commandStep_cases (c : Command) (s : State) :
    (s.fault = true ∧ c.cmd = 0x8000 ∧ commandStep c s = .next (respond (status s) s)) ∨
    (s.fault = true ∧ c.cmd ≠ 0x8000 ∧ commandStep c s = .next (noResponse s)) ∨
    (s.fault = false ∧ (∃ e, decode c = .error e) ∧ commandStep c s = .next (raise .illegalCmd s)) ∨
    (s.fault = false ∧ ∃ i, decode c = .ok i ∧ commandStep c s = exec i s) := by
  unfold commandStep
  cases hf : s.fault with
  | true =>
    by_cases hc : c.cmd = 0x8000
    · exact .inl ⟨rfl, hc, by rw [if_pos rfl, if_pos (show c.cmd = getsCmd from hc)]; rfl⟩
    · exact .inr (.inl ⟨rfl, hc, by rw [if_pos rfl, if_neg (show ¬ c.cmd = getsCmd from hc)]⟩)
  | false =>
    cases hd : decode c with
    | error e => exact .inr (.inr (.inl ⟨rfl, ⟨e, rfl⟩, by simp⟩))
    | ok i => exact .inr (.inr (.inr ⟨rfl, i, rfl, by simp⟩))

/-- Every input answers a next state, and leaves what is pending. -/
theorem inputStep_next (input : Input) (s : State) : ∃ t, inputStep input s = .next t ∧ t.pending = s.pending := by
  cases input with
  | reset => exact ⟨_, rfl, rfl⟩
  | command c =>
    rcases commandStep_cases c s with ⟨-, -, h⟩ | ⟨-, -, h⟩ | ⟨-, -, h⟩ | ⟨-, i, -, h⟩
    · exact ⟨_, h, rfl⟩
    · exact ⟨_, h, rfl⟩
    · exact ⟨_, h, rfl⟩
    · rcases exec_cases i s with ⟨v, hv⟩ | ⟨f, -, hf⟩ | ⟨u, hu, -, hp⟩
      · exact ⟨_, h.trans hv, rfl⟩
      · exact ⟨_, h.trans hf, rfl⟩
      · exact ⟨_, h.trans hu, hp⟩

/-! ### What is pending plays no part in an input's effect -/

theorem exec_with_pending {i : Instr} {s t : State} (p : List Input) (h : exec i s = .next t) :
    exec i { s with pending := p } = .next { t with pending := p } := by
  cases i with
  | init => cases h; rfl
  | seth idx value => cases h; rfl
  | geth idx =>
    by_cases hv : s.hval[idx.val] = true
    · rw [execGeth_of_valid hv] at h; cases h; exact execGeth_of_valid hv
    · rw [execGeth_of_invalid hv] at h; cases h; exact execGeth_of_invalid hv
  | pushb byte =>
    by_cases hb : s.bptr = 128
    · rw [execPushb_of_full hb] at h; cases h; exact execPushb_of_full hb
    · rw [execPushb_of_room hb] at h; cases h; exact execPushb_of_room hb
  | setw idx value => cases h; rfl
  | compress =>
    by_cases hv : HashAllValid s
    · by_cases hb : BlockComplete s
      · obtain ⟨v, hf⟩ : ∃ v, compressF s.h (des s.mb) = v := ⟨_, rfl⟩
        rw [execCompress_of_ready hf hv hb] at h; cases h
        exact execCompress_of_ready (s := { s with pending := p }) hf hv hb
      · rw [execCompress_of_incomplete hv hb] at h; cases h
        exact execCompress_of_incomplete (s := { s with pending := p }) hv hb
    · rw [execCompress_of_noValue hv] at h; cases h
      exact execCompress_of_noValue (s := { s with pending := p }) hv
  | getb idx =>
    by_cases hv : s.hval[(digestWordIndex idx).val] = true
    · rw [execGetb_of_valid hv] at h; cases h; exact execGetb_of_valid hv
    · rw [execGetb_of_invalid hv] at h; cases h; exact execGetb_of_invalid hv
  | gets => cases h; rfl
  | clrb => cases h; rfl

theorem inputStep_with_pending {input : Input} {s t : State} (p : List Input) (h : inputStep input s = .next t) :
    inputStep input { s with pending := p } = .next { t with pending := p } := by
  cases input with
  | reset => cases h; rfl
  | command c =>
    simp only [inputStep, commandStep] at h ⊢
    split at h
    · rw [if_pos ‹_›]
      split at h
      · rw [if_pos ‹_›]; exact exec_with_pending p h
      · rw [if_neg ‹_›]; cases h; rfl
    · rw [if_neg ‹_›]
      cases hd : decode c with
      | error e => simp only [hd] at h ⊢; cases h; rfl
      | ok i => simp only [hd] at h ⊢; exact exec_with_pending p h

theorem step_of_nil {s : State} (h : s.pending = []) : step s = .next s := by
  simp [step, engineStep, h]

theorem step_of_cons {s : State} {input : Input} {rest : List Input} (h : s.pending = input :: rest) :
    step s = inputStep input { s with pending := rest } := by
  simp [step, engineStep, h]

end Sys2Proof.Machine
end

