-- ==== Sys2Proof/Laws/Launch.lean ====
section
/-! SUPPORT. Running a sequence of commands: one command in front, and two sequences one after the other; and what a launch
can do. -/

namespace Sys2Proof.Machine

theorem commandSteps_cons {c : Command} {cs : List Command} {s t : State} {r : LaunchResult}
    (h : commandStep c s = .next t) (hr : commandSteps cs t = .next r) :
    commandSteps (c :: cs) s = .next { final := r.final, responses := t.rdata :: r.responses } := by
  simp [commandSteps, h, hr]

theorem commandSteps_append {cs ds : List Command} {s : State} {r q : LaunchResult}
    (h : commandSteps cs s = .next r) (h' : commandSteps ds r.final = .next q) :
    commandSteps (cs ++ ds) s = .next { final := q.final, responses := r.responses ++ q.responses } := by
  induction cs generalizing s r with
  | nil => cases h; simpa using h'
  | cons c cs ih =>
    simp only [commandSteps] at h
    cases hc : commandStep c s with
    | next t =>
      rw [hc] at h
      simp only at h
      cases hr : commandSteps cs t with
      | next p => rw [hr] at h; cases h; exact commandSteps_cons hc (ih hr h')
      | fault f => rw [hr] at h; cases h
      | refused f => rw [hr] at h; cases h
    | fault f => rw [hc] at h; cases h
    | refused f => rw [hc] at h; cases h

/-- A command the HOST encodes from an instruction is that instruction, once decode undoes encode (R66, R71). -/
theorem commandStep_encode {i : Instr} {s : State} (hd : decode (encode i) = .ok i) (hf : s.fault = false) :
    commandStep (encode i) s = exec i s := by
  simp [commandStep, hf, hd]

/-! ### What is pending is performed first (R54) -/

theorem drain_of_nil {s : State} (h : s.pending = []) : drain s = .next s := by
  cases s; cases h; rfl

theorem drain_of_cons {s t : State} {input : Input} {rest : List Input} (h : s.pending = input :: rest)
    (ht : inputStep input { s with pending := [] } = .next t) : drain s = performInputs rest t := by
  simp [drain, h, performInputs, ht]

/-- Performing inputs always answers a next state, with the same inputs pending as before. -/
theorem performInputs_next (inputs : List Input) (s : State) :
    ∃ t, performInputs inputs s = .next t ∧ t.pending = s.pending := by
  induction inputs generalizing s with
  | nil => exact ⟨s, rfl, rfl⟩
  | cons input rest ih =>
    obtain ⟨u, hu, hp⟩ := inputStep_next input s
    obtain ⟨t, ht, hq⟩ := ih u
    exact ⟨t, by simp [performInputs, hu, ht], hq.trans hp⟩

theorem drain_next (s : State) : ∃ t, drain s = .next t ∧ t.pending = [] :=
  performInputs_next s.pending { s with pending := [] }

theorem issueAndPerform_of_drain {cs : List Command} {s t : State} (h : drain s = .next t) :
    issueAndPerform cs s = commandSteps cs t := by
  simp [issueAndPerform, h]

/-! ### Launches (R21, R133) -/

theorem issuedOnlyBy_iff {host : Nat} {issued : List Issued} :
    issuedOnlyBy host issued = true ↔ ∀ i ∈ issued, i.host = host := by
  simp [issuedOnlyBy]

theorem launch_of_own {issued : List Issued} {e : Engine} (h : ∀ i ∈ issued, i.host = e.host) :
    launch issued e = settleLaunch (issueAndPerform (issued.map Issued.command) e.state) := by
  rw [launch, if_pos (issuedOnlyBy_iff.mpr h)]

theorem launch_of_other {issued : List Issued} {e : Engine} (h : ∃ i ∈ issued, i.host ≠ e.host) :
    launch issued e = .refused .twoHosts := by
  obtain ⟨i, hi, hne⟩ := h
  rw [launch, if_neg (fun ho => hne (issuedOnlyBy_iff.mp ho i hi))]

/-- A launch that succeeds was issued by the engine's own HOST alone. -/
theorem host_of_launch_next {issued : List Issued} {e : Engine} {r : LaunchResult} (h : launch issued e = .next r) :
    ∀ i ∈ issued, i.host = e.host := by
  by_contra hno
  simp only [not_forall] at hno
  obtain ⟨i, hi, hne⟩ := hno
  rw [launch_of_other ⟨i, hi, hne⟩] at h
  cases h

end Sys2Proof.Machine
end

