-- ==== Sys2Proof/Laws/PerInstr.lean ====
section
/-! SUPPORT. One fact about every instruction as syntax: the word it encodes to is spelled by the row of its own mnemonic
(30_encoding.md R65). -/

namespace Sys2Proof.Laws.EncodingFitsRow

/-- The encoded word of `i` matches the mask and pattern of a row with `i`'s mnemonic. -/
def Statement (i : Instr) : Prop :=
  ∃ r ∈ opcodeMap, r.mnemonic = i.mnemonic ∧ rowSpells r (encode i).cmd = true

theorem init : Statement .init := by
  refine ⟨opcodeMap[0], by decide, rfl, by decide⟩

theorem seth (idx : Fin 8) (value : Word) : Statement (.seth idx value) := by
  refine ⟨opcodeMap[1], by decide, rfl, ?_⟩
  have h : ∀ j : Fin 8, rowSpells opcodeMap[1] (0x2000 ||| BitVec.ofNat 16 j.val) = true := by decide
  exact h idx

theorem geth (idx : Fin 8) : Statement (.geth idx) := by
  refine ⟨opcodeMap[2], by decide, rfl, ?_⟩
  revert idx; decide

theorem pushb (byte : Byte) : Statement (.pushb byte) := by
  refine ⟨opcodeMap[3], by decide, rfl, ?_⟩
  simp only [rowSpells, encode, beq_iff_eq]
  ext i hi
  have hz : 8 ≤ i → byte.getLsbD i = false := BitVec.getLsbD_of_ge byte i
  interval_cases i <;> simp_all [opcodeMap]

theorem setw (idx : Fin 16) (value : Word) : Statement (.setw idx value) := by
  refine ⟨opcodeMap[4], by decide, rfl, ?_⟩
  have h : ∀ j : Fin 16, rowSpells opcodeMap[4] (0x5000 ||| BitVec.ofNat 16 j.val) = true := by decide
  exact h idx

theorem compress : Statement .compress := by
  refine ⟨opcodeMap[5], by decide, rfl, by decide⟩

theorem getb (idx : Fin 64) : Statement (.getb idx) := by
  refine ⟨opcodeMap[6], by decide, rfl, ?_⟩
  revert idx; decide

theorem gets : Statement .gets := by
  refine ⟨opcodeMap[7], by decide, rfl, by decide⟩

theorem clrb : Statement .clrb := by
  refine ⟨opcodeMap[8], by decide, rfl, by decide⟩

end Sys2Proof.Laws.EncodingFitsRow
end

