-- ==== Sys2Proof/Laws/Platform.lean ====
section
/-! SUPPORT. What a step and an event of a platform do to one engine, said once. -/

namespace Sys2Proof.Machine

/-- Every step of an engine answers a next state. -/
theorem step_next (s : State) : ∃ t, step s = .next t := by
  cases h : s.pending with
  | nil => exact ⟨s, step_of_nil h⟩
  | cons input rest =>
    obtain ⟨t, ht, -⟩ := inputStep_next input { s with pending := rest }
    exact ⟨t, (step_of_cons h).trans ht⟩

theorem platformStep_of_some {n : Nat} {engines : Platform} {e : Engine} {t : State} (he : engines[n]? = some e)
    (h : step e.state = .next t) : platformStep n engines = .next (engines.set n { e with state := t }) := by
  simp [platformStep, he, h]

theorem platformStep_of_none {n : Nat} {engines : Platform} (he : engines[n]? = none) :
    platformStep n engines = .next engines := by
  simp [platformStep, he]

theorem platformHost_of_own {p : Params} {n : Nat} {cs : List Command} {engines : Platform} {e : Engine}
    (he : engines[n]? = some e) :
    platformHost p e.host n cs engines = .next (platformIssue n (deliver p.cmdTransport cs) engines) := by
  simp [platformHost, he]

theorem platformHost_of_other {p : Params} {host n : Nat} {cs : List Command} {engines : Platform} {e : Engine}
    (he : engines[n]? = some e) (h : host ≠ e.host) : platformHost p host n cs engines = .refused .twoHosts := by
  simp [platformHost, he, h]

theorem platformIssue_get {m n : Nat} {inputs : List Input} {engines : Platform} {e : Engine}
    (he : engines[n]? = some e) :
    (platformIssue m inputs engines)[n]? =
      some { e with state := issueBehind (if m = n then inputs else []) e.state } := by
  by_cases hm : m = n <;> simp [platformIssue, hm, he, issueBehind]

/-- All an event can do to engine `n`: the engine's own step, or inputs issued behind what is pending, or nothing. The HOST
the engine serves is never changed. -/
theorem platformEvent_engine {p : Params} {event : PlatformEvent} {engines after : Platform} {n : Nat} {e : Engine}
    (h : platformEvent p event engines = .next after) (he : engines[n]? = some e) :
    (event = .engine n ∧ ∃ t, step e.state = .next t ∧ after[n]? = some { e with state := t }) ∨
    (event ≠ .engine n ∧ ∃ inputs, after[n]? = some { e with state := issueBehind inputs e.state }) := by
  have same : issueBehind [] e.state = e.state := by simp [issueBehind]
  cases event with
  | engine m =>
    by_cases hm : m = n
    · subst hm
      obtain ⟨t, ht⟩ := step_next e.state
      obtain rfl : engines.set m { e with state := t } = after := by
        simpa [platformEvent, platformStep_of_some he ht] using h
      have hlt : m < engines.length := (List.getElem?_eq_some_iff.mp he).1
      exact .inl ⟨rfl, t, ht, by simp [hlt]⟩
    · refine .inr ⟨by simpa using hm, [], ?_⟩
      rw [same]
      cases hu : engines[m]? with
      | none =>
        obtain rfl : engines = after := by simpa [platformEvent, platformStep_of_none hu] using h
        exact he
      | some u =>
        obtain ⟨t, ht⟩ := step_next u.state
        obtain rfl : engines.set m { u with state := t } = after := by
          simpa [platformEvent, platformStep_of_some hu ht] using h
        simpa [List.getElem?_set_ne hm] using he
  | host host m issued =>
    refine .inr ⟨by simp, ?_⟩
    cases hu : engines[m]? with
    | none =>
      obtain rfl : engines = after := by simpa [platformEvent, platformHost, hu] using h
      exact ⟨[], by rw [same]; exact he⟩
    | some u =>
      by_cases hh : host = u.host
      · subst hh
        obtain rfl : platformIssue m (deliver p.cmdTransport issued) engines = after := by
          simpa [platformEvent, platformHost_of_own hu] using h
        exact ⟨_, platformIssue_get he⟩
      · simp [platformEvent, platformHost_of_other hu hh] at h
  | reset m =>
    obtain rfl := Host.Outcome.next.inj h
    exact .inr ⟨by simp, _, platformIssue_get he⟩

/-- No event makes or removes an engine. -/
theorem platformEvent_length {p : Params} {event : PlatformEvent} {engines after : Platform}
    (h : platformEvent p event engines = .next after) : after.length = engines.length := by
  cases event with
  | engine n =>
    cases he : engines[n]? with
    | none =>
      obtain rfl : engines = after := by simpa [platformEvent, platformStep_of_none he] using h
      rfl
    | some e =>
      obtain ⟨t, ht⟩ := step_next e.state
      obtain rfl : engines.set n { e with state := t } = after := by
        simpa [platformEvent, platformStep_of_some he ht] using h
      simp
  | host host n issued =>
    cases he : engines[n]? with
    | none =>
      obtain rfl : engines = after := by simpa [platformEvent, platformHost, he] using h
      rfl
    | some e =>
      by_cases hh : host = e.host
      · subst hh
        obtain rfl : platformIssue n (deliver p.cmdTransport issued) engines = after := by
          simpa [platformEvent, platformHost_of_own he] using h
        simp [platformIssue]
      · simp [platformEvent, platformHost_of_other he hh] at h
  | reset n =>
    obtain rfl := Host.Outcome.next.inj h
    simp [platformIssue]

end Sys2Proof.Machine
end

