-- ==== Sys2Proof/Tests/Slice0.lean ====
section
/-! SUPPORT. Small tests of the model. Every expected value is from spec/: the examples in the rules, 95_test_vectors.md
sections 2 and 3, or a word written out from the formats of 30_encoding.md R63. The last part gives, for every
obligation with hypotheses, a concrete case that meets them. -/

namespace Sys2Proof.Tests

open Sys2Proof.Machine

/-! ### Helpers -/

/-- The answer is a next state with this property. -/
def answers (o : Result) (p : State → Bool) : Bool :=
  match o with
  | .next t => p t
  | .fault _ => false
  | .refused _ => false

/-- After INIT (R147 CleanInit). -/
def afterInit : State := noResponse (writeHashState iv State.reset)

/-- Faulted right after reset, by a COMPRESS (95 section 2.7: STATUS 0x0000000000210000). -/
def faulted : State := raise .hNoValue State.reset

/-- After SETH 3, O alone. -/
def onlyWord3 : State := writeHashWord 3 0xFFFFFFFFFFFFFFFF State.reset

/-- The padded "abc" block, loaded, after INIT (V2). -/
def abcBlock : MessageBlock := #v[0x6162638000000000, 0, 0, 0, 0, 0, 0, 0, 0, 0, 0, 0, 0, 0, 0, 0x18]

/-- A block of 128 bytes that holds the words `m`, after INIT. -/
def loaded (m : MessageBlock) : State :=
  { afterInit with
    mb := Vector.ofFn fun k : Fin 128 => serwByte m[k.val / 8] (k.val % 8)
    mbv := Vector.replicate 128 true }

/-! ### Well-formedness: each check refuses an ill-formed term -/

theorem test_asm_wellformed : AsmCommand.wf { mnemonic := .setw, operands := [15, 0x18] } = true := by decide
theorem test_asm_missing_operand : AsmCommand.operandCountOk { mnemonic := .setw, operands := [15] } = false := by decide
theorem test_asm_extra_operand : AsmCommand.operandCountOk { mnemonic := .init, operands := [0] } = false := by decide
theorem test_asm_index_out_of_range : AsmCommand.operandRangesOk { mnemonic := .seth, operands := [8, 0] } = false := by
  decide
theorem test_asm_value_out_of_range :
    AsmCommand.operandRangesOk { mnemonic := .setw, operands := [0, 2 ^ 64] } = false := by decide
theorem test_block_too_long : Pseudo.wf (.block (List.replicate 129 0)) = false := by decide +kernel
theorem test_hash_length_mismatch : Pseudo.wf (.hash [0x61] 2) = false := by decide
theorem test_hash_too_long (src : List Byte) : Pseudo.wf (.hash src (2 ^ 61)) = false := by simp [Pseudo.wf]
theorem test_params_default : Params.wf {} = true := by decide
theorem test_params_bad_threshold : Params.wf { padOneBlockMaxR := 109 } = false := by decide
theorem test_params_no_engine : Params.wf { numInstances := 0 } = false := by decide

/-! ### Decoding, word by word from the formats of R63 -/

theorem test_decode_init : decode { cmd := 0b0001000000000000, wdata := 0 } = .ok .init := by decide
theorem test_decode_seth : decode { cmd := 0b0010000000000011, wdata := 0xABCD } = .ok (.seth 3 0xABCD) := by decide
theorem test_decode_geth : decode { cmd := 0b0011000000000100, wdata := 0 } = .ok (.geth 4) := by decide
theorem test_decode_pushb : decode { cmd := 0b0100000001100001, wdata := 0 } = .ok (.pushb 0x61) := by decide
theorem test_decode_setw : decode { cmd := 0b0101000000001111, wdata := 0x18 } = .ok (.setw 15 0x18) := by decide
theorem test_decode_compress : decode { cmd := 0b0110000000000000, wdata := 0 } = .ok .compress := by decide
theorem test_decode_getb : decode { cmd := 0b0111000000111111, wdata := 0 } = .ok (.getb 63) := by decide
theorem test_decode_gets : decode { cmd := 0b1000000000000000, wdata := 0 } = .ok .gets := by decide
theorem test_decode_clrb : decode { cmd := 0b1001000000000000, wdata := 0 } = .ok .clrb := by decide

/-- R127: the rule's own examples. -/
theorem test_decode_illegal :
    decode { cmd := 0x0000, wdata := 0 } = .error .reservedOpcode ∧
    decode { cmd := 0xF000, wdata := 0 } = .error .reservedOpcode ∧
    decode { cmd := 0x1001, wdata := 0 } = .error .reservedBits ∧
    decode { cmd := 0x2008, wdata := 0 } = .error .reservedBits ∧
    decode { cmd := 0x7040, wdata := 0 } = .error .reservedBits := by decide

/-- R71: the rule's own example. -/
theorem test_encode_setw : encode (.setw 15 0x18) = { cmd := 0x500F, wdata := 0x18 } := by decide

/-! ### The datapath (95 section 2.1) -/

theorem test_add64 : add64 0x6a09e667f3bcc908 0x73a54f399fa4b1b2 = 0xddaf35a193617aba := by decide
theorem test_rotr : rotr 0x0123456789abcdef 39 = 0xcf13579bde02468a := by decide
theorem test_shr : shr 0x0123456789abcdef 7 = 0x0002468acf13579b := by decide
theorem test_sigma0 : sigma0 0x0123456789abcdef = 0x6f92c77c6c4f1aa1 := by decide
theorem test_sigma1 : sigma1 0x0123456789abcdef = 0x70a3460dbbd4317a := by decide
theorem test_bigSigma0 : bigSigma0 0x6a09e667f3bcc908 = 0x08c4db56aac80c2a := by decide
theorem test_bigSigma1 : bigSigma1 0x510e527fade682d1 = 0x9427e33bb5c9dbca := by decide
theorem test_ch : ch 0x510e527fade682d1 0x9b05688c2b3e6c1f 0x1f83d9abfb41bd6b = 0x1f85c98c7b273d3b := by decide
theorem test_maj : maj 0x6a09e667f3bcc908 0xbb67ae8584caa73b 0x3c6ef372fe94f82b = 0x3a6fe667f69ce92b := by decide

/-- R38: the first and last row of the table, read at their t. -/
theorem test_roundConstant :
    roundConstant 0 = 0x428a2f98d728ae22 ∧ roundConstant 20 = 0x2de92c6f592b0275 ∧
    roundConstant 40 = 0xa2bfe8a14cf10364 ∧ roundConstant 79 = 0x6c44198c4a475817 := by decide +kernel

/-! ### Schedule, rounds, compression function, byte order (95 sections 2.2 to 2.6) -/

/-- R97: W[17] and W[79] of the padded "abc" block. -/
theorem test_schedule :
    (schedule abcBlock).getD 17 0 = 0x00030000000000c0 ∧ (schedule abcBlock).getD 79 0 = 0x92aeeed1a7bcf7d2 := by
  decide +kernel

/-- 95 section 2.5: the working variables after round 2. -/
theorem test_rounds :
    afterRounds (fun t => (schedule abcBlock).getD t 0) (loadWorking iv) 3 =
      { a := 0xebcffc07203d91f3, b := 0x1320f8c9fb872cc0, c := 0xf6afceb8bcfcddf5, d := 0x6a09e667f3bcc908,
        e := 0xdfa9b239f2697812, f := 0xc3d4ebfd48650ffa, g := 0x58cb02347ab51f91, h := 0x510e527fade682d1 } := by
  decide +kernel

/-- 95 section 2.6: the all-ones row, which wraps in every addition. -/
theorem test_compressF_all_ones :
    compressF (Vector.replicate 8 0xFFFFFFFFFFFFFFFF) (Vector.replicate 16 0xFFFFFFFFFFFFFFFF) =
      #v[0x9b0f121696e951ee, 0x41d0b467b741e768, 0x564f41ebb3b72884, 0xf805b40fcacb5bc1,
         0x3c379cffcf02a900, 0x9b17a37f809ac554, 0x79c9fd2e1c83b6ab, 0xe948d9e252c02c7a] := by decide +kernel

/-- R90: bytes 0x00 to 0x7f. -/
theorem test_des :
    (des (Vector.ofFn fun k : Fin 128 => BitVec.ofNat 8 k.val))[0] = 0x0001020304050607 ∧
    (des (Vector.ofFn fun k : Fin 128 => BitVec.ofNat 8 k.val))[15] = 0x78797a7b7c7d7e7f := by decide +kernel

/-- R106: SER(IV) begins 6a 09 e6 67 and ends 13 7e 21 79. -/
theorem test_ser : (ser iv)[0] = 0x6a ∧ (ser iv)[3] = 0x67 ∧ (ser iv)[60] = 0x13 ∧ (ser iv)[63] = 0x79 := by
  decide +kernel

/-! ### The commands (95 section 2.7) -/

theorem test_init : answers (exec .init State.reset)
    (fun t => t.h[0] == 0x6a09e667f3bcc908 && t.h[7] == 0x5be0cd19137e2179 && status t == 0xFF00) = true := by
  decide +kernel
theorem test_seth : answers (exec (.seth 3 0xFFFFFFFFFFFFFFFF) State.reset)
    (fun t => t.h[3] == 0xFFFFFFFFFFFFFFFF && status t == 0x800) = true := by decide +kernel
theorem test_geth : answers (exec (.geth 4) afterInit) (fun t => t.rdata == some 0x510e527fade682d1) = true := by
  decide +kernel
theorem test_geth_no_value : answers (exec (.geth 0) State.reset)
    (fun t => t.rdata == none && status t == 0x210000) = true := by decide +kernel
theorem test_gets_reset : answers (exec .gets State.reset) (fun t => t.rdata == some 0) = true := by decide +kernel
theorem test_gets_faulted : answers (commandStep { cmd := 0x8000, wdata := 0 } faulted)
    (fun t => t.rdata == some 0x210000) = true := by decide +kernel
/-- 95 section 2.2: SETW 0, 0x1122334455667788 and then PUSHB 0x99: the later write wins. -/
theorem test_pushb_after_setw :
    answers (exec (.pushb 0x99) (writeBlockWord 0 0x1122334455667788 State.reset))
      (fun t => t.mb[0] == 0x99 && t.mb[1] == 0x22 && t.mb[7] == 0x88 && status t == 0x0000000100000001) = true := by
  decide +kernel
theorem test_pushb_overflow : answers (exec (.pushb 0) { loaded abcBlock with bptr := 128 })
    (fun t => status t == 0x0000FFFF0041FF80) = true := by decide +kernel
theorem test_setw : answers (exec (.setw 15 0x18) State.reset)
    (fun t => t.mb[120] == 0 && t.mb[127] == 0x18 && status t == 0x0000800000000000) = true := by decide +kernel
/-- P1: the padded "abc" block from IV. -/
theorem test_compress : answers (exec .compress (loaded abcBlock))
    (fun t => t.h == #v[0xddaf35a193617aba, 0xcc417349ae204131, 0x12e6fa4e89a97ea2, 0x0a9eeee64b55d39a,
      0x2192992a274fc1a8, 0x36ba3c23a3feebbd, 0x454d4423643ce80e, 0x2a9ac94fa54ca49f] && status t == 0xFF00) = true := by
  decide +kernel
/-- R131: COMPRESS right after reset is H_NO_VALUE, not BLOCK_INCOMPLETE. -/
theorem test_compress_priority : answers (exec .compress State.reset) (fun t => status t == 0x210000) = true := by
  decide +kernel
theorem test_getb : answers (exec (.getb 8) afterInit) (fun t => t.rdata == some 0xbb) = true := by decide +kernel
theorem test_getb_other_word_invalid :
    answers (exec (.getb 31) onlyWord3) (fun t => t.rdata == some 0xff) = true ∧
    answers (exec (.getb 0) onlyWord3) (fun t => t.rdata == none && status t == 0x210800) = true := by decide +kernel
theorem test_clrb : answers (exec .clrb (pushByte 0x61 afterInit)) (fun t => status t == 0xFF00) = true := by
  decide +kernel

/-! ### The step -/

/-- An illegal word keeps the hash state (95 section 2.7: STATUS 0x000000000011FF00). -/
theorem test_step_illegal : answers (step (afterInit.withFetchWord 16 0x0000)) (fun t => status t == 0x11FF00) = true := by
  decide +kernel
/-- While faulted, INIT is ignored. -/
theorem test_step_faulted : answers (step (faulted.withFetchWord 16 0x1000))
    (fun t => t.rdata == none && status t == 0x210000) = true := by decide +kernel
/-- Reset clears the fault and keeps what is issued behind it. -/
theorem test_step_reset : answers (step { faulted with pending := [.reset, .command { cmd := 0x1000, wdata := 0 }] })
    (fun t => status t == 0 && t.pending == [.command { cmd := 0x1000, wdata := 0 }]) = true := by decide +kernel

/-! ### The HOST's side (45; V1, V2, V9) -/

/-- V2: the digest of "abc". -/
theorem test_digest_abc : messageDigest 110 [0x61, 0x62, 0x63] =
    #v[0xddaf35a193617aba, 0xcc417349ae204131, 0x12e6fa4e89a97ea2, 0x0a9eeee64b55d39a,
       0x2192992a274fc1a8, 0x36ba3c23a3feebbd, 0x454d4423643ce80e, 0x2a9ac94fa54ca49f] := by decide +kernel
/-- V1: the digest of the empty message. -/
theorem test_digest_empty : messageDigest 110 [] =
    #v[0xcf83e1357eefb8bd, 0xf1542850d66d8007, 0xd620e4050b5715dc, 0x83f4a921d36ce9ce,
       0x47d0d13c5d85f2b0, 0xff8318d2877eec2f, 0x63b931bd47417a81, 0xa538327af927da3e] := by decide +kernel
/-- V9: 111 bytes of 0x61 with threshold 111 (the first word of the digest). -/
theorem test_digest_111 : (messageDigest 111 (List.replicate 111 0x61))[0] = 0xfa9121c7b32b9e01 := by decide +kernel
/-- V9: with threshold 110 the same message takes two final blocks, the first with word 13 = 0x6161616161616180. -/
theorem test_blocks_111 : (messageBlocks 110 (List.replicate 111 0x61)).map (fun m => (m[13], m[15])) =
    [(0x6161616161616180, 0), (0, 0x378)] := by decide +kernel
/-- P6: a×129 takes two COMPRESS. -/
theorem test_hash_two_blocks :
    (hashExpansion 110 (List.replicate 129 0x61)).countP (fun c => c.cmd == 0x6000) = 2 := by decide +kernel
/-- R70: a line with a comment, and a repeat count (after a macro: log 16). -/
theorem test_assemble_line :
    assembleLine "setw 15, 0x18   ; bit length 24" = .ok [{ cmd := 0x500F, wdata := 0x18 }] ∧
    assembleLine "PUSHB 0x00 × 2" = .ok [{ cmd := 0x4000, wdata := 0 }, { cmd := 0x4000, wdata := 0 }] ∧
    assembleLine "BLOCK 1 × 2" = .ok [{ cmd := 0x4001, wdata := 0 }, { cmd := 0x4001, wdata := 0 }] ∧
    assembleLine "GETB 64" = .error .badOperands ∧ assembleLine "NOP" = .error .unknownMnemonic := by decide +kernel
/-- R21: a second HOST is refused, in one launch and in a later one. -/
theorem test_two_hosts :
    launch [⟨0, { cmd := 0x1000, wdata := 0 }⟩, ⟨1, { cmd := 0x8000, wdata := 0 }⟩] { host := 0, state := State.reset } =
      .refused .twoHosts ∧
    launches [[⟨0, { cmd := 0x1000, wdata := 0 }⟩], [⟨1, { cmd := 0x8000, wdata := 0 }⟩]]
      { host := 0, state := State.reset } = .refused .twoHosts := ⟨rfl, rfl⟩

/-! ### Witnesses: concrete cases that meet the obligations' hypotheses -/

theorem witness_EncodeOfDecode : ∃ c i, decode c = .ok i ∧ (i.mnemonic = .seth ∨ i.mnemonic = .setw) :=
  ⟨{ cmd := 0x2007, wdata := 9 }, .seth 7 9, by decide, by decide⟩
theorem witness_AssemblerBounds :
    (7 < 8 ∧ 2 ^ 64 - 1 < 2 ^ 64) ∧ 255 < 256 ∧ 15 < 16 ∧ 63 < 64 := by decide
theorem witness_ReservedOpcodes :
    (0x0000#16).toNat / 0x1000 = 0 ∧ 0xA ≤ (0xA000#16).toNat / 0x1000 ∧ 0xA ≤ (0xFFFF#16).toNat / 0x1000 := by decide
theorem witness_IllegalWords : State.reset.fault = false ∧
    (∃ e, decode { cmd := 0x0FFF, wdata := 0 } = .error e) ∧ (∃ e, decode { cmd := 0xA000, wdata := 0 } = .error e) ∧
    (∃ e, decode { cmd := 0x6001, wdata := 0 } = .error e) ∧ (∃ e, decode { cmd := 0x3008, wdata := 0 } = .error e) ∧
    (∃ e, decode { cmd := 0x4100, wdata := 0 } = .error e) ∧ (∃ e, decode { cmd := 0x5010, wdata := 0 } = .error e) ∧
    (∃ e, decode { cmd := 0x7040, wdata := 0 } = .error e) :=
  ⟨rfl, ⟨.reservedOpcode, by decide⟩, ⟨.reservedOpcode, by decide⟩, ⟨.reservedBits, by decide⟩,
    ⟨.reservedBits, by decide⟩, ⟨.reservedBits, by decide⟩, ⟨.reservedBits, by decide⟩, ⟨.reservedBits, by decide⟩⟩
/-- A legal word, and illegal words with the OP of SETH and of SETW. -/
theorem witness_UnusedWriteData : decode { cmd := 0x1000, wdata := 7 } = .ok .init ∧
    decode { cmd := 0x2008, wdata := 7 } = .error .reservedBits ∧
    decode { cmd := 0x5010, wdata := 7 } = .error .reservedBits := by decide
theorem witness_StepRunsTheDecodedCommand : ∃ (s : State) (c : Command) (rest : List Input) (i : Instr),
    s.pending = .command c :: rest ∧ s.fault = false ∧ decode c = .ok i :=
  ⟨{ State.reset with pending := [.command { cmd := 0x5003, wdata := 1 }] }, _, _, .setw 3 1, rfl, rfl, by decide⟩
theorem witness_FetchedWord : State.reset.fault = false ∧ decodeTableWord 16 0x40FF = some (.pushb 0xFF) := by decide
theorem witness_ResetAndIdle :
    (∃ (s : State) (rest : List Input), s.pending = .reset :: rest) ∧ ∃ s : State, s.pending = [] :=
  ⟨⟨{ faulted with pending := [.reset] }, [], rfl⟩, State.reset, rfl⟩
theorem witness_CommandStep :
    faulted.fault = true ∧ (0x1000#16 : BitVec 16) ≠ 0x8000 ∧ State.reset.fault = false ∧
    decode { cmd := 0x1001, wdata := 0 } = .error .reservedBits ∧ decode { cmd := 0x9000, wdata := 0 } = .ok .clrb := by
  decide
theorem witness_HashWords : afterInit.hval[7] = true ∧ State.reset.hval[0] = false ∧ (2 : Fin 8) ≠ 7 := by decide
theorem witness_SavedHashState : afterInit.fault = false ∧ (∀ i : Fin 8, afterInit.hval[i.val] = true) ∧
    State.reset.fault = false := by decide
theorem witness_Pushb :
    ({ State.reset with bptr := 127 } : State).bptr.toNat < 128 ∧
    ({ State.reset with bptr := 128 } : State).bptr.toNat = 128 ∧
    (127 : Fin 128).val = ({ State.reset with bptr := 127 } : State).bptr.toNat := by decide
theorem witness_Setw : (127 : Fin 128).val / 8 = (15 : Fin 16).val ∧ (119 : Fin 128).val / 8 ≠ (15 : Fin 16).val := by
  decide
theorem witness_EmptyBuffer : (∀ k : Fin 128, State.reset.mbv[k.val] = false) ∧ State.reset.bptr = 0 := by decide +kernel
theorem witness_SetwAndEightPushbs : ({ State.reset with bptr := 120 } : State).fault = false ∧
    ({ State.reset with bptr := 120 } : State).bptr.toNat = 8 * (15 : Fin 16).val := by decide
theorem witness_Getb : afterInit.hval[(63 : Fin 64).val / 8] = true ∧ onlyWord3.hval[(0 : Fin 64).val / 8] = false := by
  decide
theorem witness_Completeness : (∀ i : Fin 8, afterInit.hval[i.val] = true) ∧ afterInit.fault = false := by decide
theorem witness_RotateBounds : (0 < 1 ∧ 1 < 64) ∧ (0 < 63 ∧ 63 < 64) := by decide
theorem witness_ScheduleBounds : (16 ≤ 16 ∧ 16 < 80) ∧ (16 ≤ 79 ∧ 79 < 80) := by decide
theorem witness_Window (m : MessageBlock) : ∃ x : Nat → MessageBlock, x 0 = m ∧
    (∀ (t j : Nat) (h : j < 15), (x (t + 1))[j] = (x t)[j + 1]) ∧
    (∀ t : Nat, (x (t + 1))[15] = (x t)[0] + sigma0 (x t)[1] + (x t)[9] + sigma1 (x t)[14]) :=
  ⟨windowAt m, rfl, fun t j h => by simp [windowAt, windowShift, h], fun t => by simp [windowAt, windowShift, add64]⟩
theorem witness_CompressionFunction : ∃ (hin : HashState) (m : MessageBlock) (w : Nat → Word) (v : Nat → Working),
    (∀ t : Fin 16, w t.val = m[t.val]) ∧
    (∀ t : Nat, 16 ≤ t → t < 80 → w t = w (t - 16) + sigma0 (w (t - 15)) + w (t - 7) + sigma1 (w (t - 2))) ∧
    v 0 = { a := hin[0], b := hin[1], c := hin[2], d := hin[3], e := hin[4], f := hin[5], g := hin[6], h := hin[7] } ∧
    ∀ t : Nat, v (t + 1) = compressRound (roundConstant t) (w t) (v t) :=
  ⟨iv, Vector.replicate 16 0, fun _ => 0, afterRounds (fun _ => 0) (loadWorking iv),
    fun t => by simp,
    fun _ _ _ => (by decide : (0 : Word) = 0 + sigma0 0 + 0 + sigma1 0), rfl, fun _ => rfl⟩
theorem witness_Compress :
    ((∀ i : Fin 8, (loaded abcBlock).hval[i.val] = true) ∧ ∀ k : Fin 128, (loaded abcBlock).mbv[k.val] = true) ∧
    (∃ i : Fin 8, onlyWord3.hval[i.val] = false) ∧
    ((∀ i : Fin 8, afterInit.hval[i.val] = true) ∧ ∃ k : Fin 128, afterInit.mbv[k.val] = false) :=
  ⟨by decide +kernel, ⟨7, by decide⟩, by decide, 127, by decide +kernel⟩
theorem witness_CleanState : CleanState afterInit iv :=
  ⟨by decide, rfl, by decide +kernel, rfl, rfl⟩
theorem witness_FaultEntry : ∃ (c : Command) (s t : State),
    s.fault = false ∧ commandStep c s = .next t ∧ t.fault = true :=
  ⟨{ cmd := 0x3000, wdata := 0 }, State.reset, raise .hNoValue State.reset, rfl, rfl, rfl⟩
theorem witness_LaunchEnds : (∀ i ∈ issuedBy 3 [{ cmd := 0x3000, wdata := 0 }], i.host = 3) ∧
    issueAndPerform [{ cmd := 0x3000, wdata := 0 }] State.reset =
      .next { final := raise .hNoValue State.reset, responses := [none] } ∧
    issueAndPerform [{ cmd := 0x1000, wdata := 0 }] State.reset = .next { final := afterInit, responses := [none] } :=
  ⟨by decide, rfl, rfl⟩
/-- R54: a launch performs what was issued before it first; here an INIT, so that GETH responds. -/
theorem test_launch_after_pending :
    (match launch (issuedBy 0 [{ cmd := 0x3000, wdata := 0 }])
        { host := 0, state := { State.reset with pending := [.command { cmd := 0x1000, wdata := 0 }] } } with
      | .next r => r.responses == [some 0x6a09e667f3bcc908] && r.final.pending == []
      | .fault _ => false
      | .refused _ => false) = true := by decide +kernel
theorem witness_ResetOnlyWayOut : ∃ s t : State, s.fault = true ∧ step s = .next t ∧ t.fault = false :=
  ⟨{ faulted with pending := [.reset] }, State.reset, rfl, rfl, rfl⟩
/-- The element clauses of the access matrix: a word, a byte and a block word other than the one written. -/
theorem witness_AccessMatrixElements : (2 : Fin 8) ≠ 7 ∧ (1 : Fin 128).val ≠ afterInit.bptr.toNat ∧
    (127 : Fin 128).val / 8 ≠ (14 : Fin 16).val := by decide
theorem witness_EveryCommandAnswers :
    (∃ t, exec .init afterInit = .next t) ∧ (∃ t, exec (.seth 7 1) afterInit = .next t) ∧
    (∃ t, exec (.geth 7) afterInit = .next t) ∧ (∃ t, exec (.pushb 1) afterInit = .next t) ∧
    (∃ t, exec (.setw 15 1) afterInit = .next t) ∧ (∃ t, exec .compress afterInit = .next t) ∧
    (∃ t, exec (.getb 63) afterInit = .next t) ∧ (∃ t, exec .gets afterInit = .next t) ∧
    (∃ t, exec .clrb afterInit = .next t) :=
  ⟨⟨_, rfl⟩, ⟨_, rfl⟩, ⟨_, rfl⟩, ⟨_, rfl⟩, ⟨_, rfl⟩, ⟨raise .blockIncomplete afterInit, rfl⟩, ⟨_, rfl⟩, ⟨_, rfl⟩, ⟨_, rfl⟩⟩
theorem witness_IdempotentCompress : (loaded abcBlock).fault = false ∧
    answers (exec .compress (loaded abcBlock)) (fun t => !t.fault) = true := by decide +kernel
theorem witness_Inv : Inv State.reset ∧ step State.reset = .next State.reset :=
  ⟨⟨by decide, by decide +kernel, by decide⟩, rfl⟩
/-- Two states that differ in what H and MB hold without a valid bit. -/
theorem witness_SameValues : ∃ s t : State, SameValues s t ∧ s ≠ t ∧ step s = .next s :=
  ⟨State.reset, { State.reset with h := iv },
    ⟨rfl, by decide, rfl, fun _ _ => rfl, rfl, rfl, rfl, rfl, rfl⟩, by decide +kernel, rfl⟩
theorem witness_Engines : platformStep 1 (platformReset { numInstances := 3 }) = .next (platformReset { numInstances := 3 }) ∧
    (0 : Nat) ≠ 1 ∧ (platformReset { numInstances := 3 })[1]? = some { host := 1, state := State.reset } :=
  ⟨rfl, by decide, rfl⟩
/-- One engine with an INIT issued; the engine steps at every time, so it is treated fairly. -/
theorem witness_FairRun : ∃ (p : Params) (events : Nat → PlatformEvent) (engines : Nat → Platform) (e : Engine),
    PlatformRun p events engines ∧ WeaklyFair events engines ∧ (engines 0)[0]? = some e ∧
    e.state.pending = [] ++ .command { cmd := 0x1000, wdata := 0 } :: [] := by
  refine ⟨{}, fun _ => .engine 0,
    fun time => if time = 0 then [⟨0, issueNext { cmd := 0x1000, wdata := 0 } State.reset⟩] else [⟨0, afterInit⟩],
    ⟨0, issueNext { cmd := 0x1000, wdata := 0 } State.reset⟩, fun time => ?_, fun n time h => ?_, rfl, rfl⟩
  · cases time with
    | zero => rfl
    | succ k => simp; rfl
  · obtain ⟨s, hs, -⟩ := h (time + 1) (by omega)
    have hn : n = 0 := by
      have := (List.getElem?_eq_some_iff.mp hs).1
      simpa using this
    exact ⟨time, by omega, by rw [hn]⟩
theorem witness_RoundConstantBounds : 0 < 80 ∧ 79 < 80 := by decide
theorem witness_OneHost :
    (∃ rs, launches [issuedBy 2 [{ cmd := 0x1000, wdata := 0 }], issuedBy 2 [{ cmd := 0x8000, wdata := 0 }]]
      { host := 2, state := State.reset } = .next rs) ∧
    (platformReset {})[0]? = some { host := 0, state := State.reset } ∧
    (∃ after, platformEvent {} (.host 0 0 [{ cmd := 0x1000, wdata := 0 }]) (platformReset {}) = .next after) ∧
    (1 : Nat) ≠ 0 :=
  ⟨⟨_, rfl⟩, rfl, ⟨_, rfl⟩, by decide⟩
theorem witness_TwoHosts : ∃ issued : List Issued, ∃ i ∈ issued, ∃ j ∈ issued, i.host ≠ j.host :=
  ⟨[⟨0, { cmd := 0x1000, wdata := 0 }⟩, ⟨1, { cmd := 0x8000, wdata := 0 }⟩], _, .head _, _, .tail _ (.head _), by decide⟩
theorem witness_BlockMacro : State.reset.fault = false ∧ State.reset.bptr = 0 ∧
    (List.replicate 128 (0xFF : Byte)).length ≤ 128 ∧ ([] : List Byte).length ≤ 128 := by decide +kernel
theorem witness_DigestMacros : afterInit.fault = false ∧ ∀ i : Fin 8, afterInit.hval[i.val] = true := by decide
theorem witness_Hash : drain State.reset = .next State.reset ∧
    drain { State.reset with pending := [.command { cmd := 0x9000, wdata := 0 }] } = .next State.reset ∧
    State.reset.fault = false ∧ State.reset.bptr = 0 ∧
    8 * ([0x61, 0x62, 0x63] : List Byte).length < 2 ^ 64 := ⟨rfl, rfl, by decide⟩
/-- A message of 300 bytes has chunks 0 and 1, and 44 bytes remain. -/
theorem witness_Chunks (b : Byte) : 1 < (List.replicate 300 b).length / 128 ∧ 43 < (List.replicate 300 b).length % 128 ∧
    (List.replicate 300 b).length % 128 < 45 := by simp only [List.length_replicate]; decide
theorem witness_HashRefused : drain faulted = .next faulted ∧ faulted.fault = true ∧ ([0x61] : List Byte).length ≠ 2 ∧
    (∃ src : List Byte, src.length = 2 ^ 61) ∧ 2 ^ 64 ≤ 8 * 2 ^ 61 ∧ (1 : Nat) ≠ (⟨0, State.reset⟩ : Engine).host :=
  ⟨rfl, rfl, by decide, ⟨_, List.length_replicate (a := 0)⟩, by decide, by decide⟩
theorem witness_Thresholds : Params.wf { padOneBlockMaxR := 110 } = true ∧ Params.wf { padOneBlockMaxR := 111 } = true ∧
    (List.replicate 110 (0 : Byte)).length % 128 ≠ 111 ∧ (List.replicate 112 (0 : Byte)).length % 128 ≠ 111 ∧
    (List.replicate 239 (0 : Byte)).length % 128 = 111 := by decide +kernel

end Sys2Proof.Tests
end

section
/-! PROOFS. What H and MB hold without a valid bit is never observed (00_scope.md R16; 10_state.md R22, R23, R25). Each named
operation takes states that agree on all that holds a value to states that agree, then each instruction, each input, and
the step. Where a command reads H or MB, it reads what holds a value, and there the two states are equal. -/

namespace Sys2Proof.Machine

/-- Two results are next states that agree on all that holds a value. -/
def SameNext (a b : Result) : Prop := ∃ s' t', a = .next s' ∧ b = .next t' ∧ SameValues s' t'

theorem sameValues_refl (s : State) : SameValues s s :=
  ⟨rfl, fun _ _ => rfl, rfl, fun _ _ => rfl, rfl, rfl, rfl, rfl, rfl⟩

/-! ### The command step, one equation for each of its four cases (R84) -/

theorem commandStep_gets_of_faulted {c : Command} {s : State} (hf : s.fault = true) (hc : c.cmd = getsCmd) :
    commandStep c s = exec .gets s := by
  rw [commandStep, if_pos hf, if_pos hc]

theorem commandStep_ignored_of_faulted {c : Command} {s : State} (hf : s.fault = true) (hc : c.cmd ≠ getsCmd) :
    commandStep c s = .next (noResponse s) := by
  rw [commandStep, if_pos hf, if_neg hc]

theorem commandStep_of_illegal {c : Command} {s : State} {e : Illegal} (hf : s.fault = false) (hd : decode c = .error e) :
    commandStep c s = .next (raise .illegalCmd s) := by
  simp [commandStep, hf, hd]

theorem commandStep_of_decoded {c : Command} {s : State} {i : Instr} (hf : s.fault = false) (hd : decode c = .ok i) :
    commandStep c s = exec i s := by
  simp [commandStep, hf, hd]

section
variable {s t : State} (hst : SameValues s t)
include hst

/-! ### What agreeing states have in common where a command reads -/

theorem hashAllValid_iff_of_sameValues : HashAllValid s ↔ HashAllValid t := by
  simp only [HashAllValid, hst.hval]

theorem blockComplete_iff_of_sameValues : BlockComplete s ↔ BlockComplete t := by
  simp only [BlockComplete, hst.mbv]

theorem h_eq_of_hashAllValid (h : HashAllValid s) : s.h = t.h :=
  Vector.ext fun i hi => hst.h ⟨i, hi⟩ (h ⟨i, hi⟩)

theorem mb_eq_of_blockComplete (h : BlockComplete s) : s.mb = t.mb :=
  Vector.ext fun k hk => hst.mb ⟨k, hk⟩ (h ⟨k, hk⟩)

/-- STATUS shows valid bits, BPTR and the fault, and nothing of H or MB (R88). -/
theorem status_eq_of_sameValues : status s = status t := by
  simp only [status, wval, wordComplete, hst.bptr, hst.hval, hst.fault, hst.fcause, hst.mbv]

/-! ### Each operation keeps the agreement -/

theorem respond_sameValues (v : Word) : SameValues (respond v s) (respond v t) := { hst with rdata := rfl }

theorem noResponse_sameValues : SameValues (noResponse s) (noResponse t) := { hst with rdata := rfl }

theorem raise_sameValues (c : FaultCause) : SameValues (raise c s) (raise c t) :=
  { hst with fault := rfl, fcause := rfl, rdata := rfl }

theorem withPending_sameValues (p : List Input) : SameValues { s with pending := p } { t with pending := p } :=
  { hst with pending := rfl }

theorem applyReset_sameValues : SameValues (applyReset s) (applyReset t) :=
  { sameValues_refl State.reset with pending := hst.pending }

theorem writeHashState_sameValues (v : HashState) : SameValues (writeHashState v s) (writeHashState v t) :=
  { hst with hval := rfl, h := fun _ _ => rfl }

/-- The word written is the same in both; another word is valid after only where it was before. -/
theorem writeHashWord_sameValues (idx : Fin 8) (v : Word) :
    SameValues (writeHashWord idx v s) (writeHashWord idx v t) where
  __ := hst
  hval := by simp only [writeHashWord_hval, hst.hval]
  h i hi := by
    by_cases hidx : i = idx
    · subst hidx; rw [writeHashWord_h_same, writeHashWord_h_same]
    · rw [writeHashWord_hval_get, if_neg hidx] at hi
      rw [writeHashWord_h_other _ _ _ _ hidx, writeHashWord_h_other _ _ _ _ hidx, hst.h i hi]

/-- BPTR is the same in both, so the same byte is written, or none where BPTR is no index. -/
theorem pushByte_sameValues (b : Byte) : SameValues (pushByte b s) (pushByte b t) where
  __ := hst
  mbv := by simp only [pushByte_mbv, hst.mbv, hst.bptr]
  mb k hk := by
    rw [pushByte_mb_get, pushByte_mb_get, ← hst.bptr]
    rw [pushByte_mbv_get] at hk
    split_ifs at hk ⊢ with hptr
    · rfl
    · exact hst.mb k hk
  bptr := by simp only [pushByte_bptr, hst.bptr]

theorem writeBlockWord_sameValues (idx : Fin 16) (v : Word) :
    SameValues (writeBlockWord idx v s) (writeBlockWord idx v t) where
  __ := hst
  mbv := by simp only [writeBlockWord_mbv, hst.mbv]
  mb k hk := by
    rw [writeBlockWord_mb_get, writeBlockWord_mb_get]
    rw [writeBlockWord_mbv_get] at hk
    split_ifs at hk ⊢ with hword
    · rfl
    · exact hst.mb k hk

/-- No valid bit is left in the block, so nothing is asked of its bytes. -/
theorem clearBlock_sameValues : SameValues (clearBlock s) (clearBlock t) where
  __ := hst
  mbv := rfl
  mb k hk := by rw [clearBlock_mbv_get] at hk; cases hk
  bptr := rfl

/-! ### Each instruction, the command step, each input -/

/-- COMPRESS reads H and MB only when every valid bit is set (R103), and then both are the same in the two states. -/
theorem execCompress_sameNext : SameNext (exec .compress s) (exec .compress t) := by
  by_cases hv : HashAllValid s
  · have hv' : HashAllValid t := (hashAllValid_iff_of_sameValues hst).mp hv
    by_cases hb : BlockComplete s
    · have hb' : BlockComplete t := (blockComplete_iff_of_sameValues hst).mp hb
      obtain ⟨v, hs⟩ : ∃ v, compressF s.h (des s.mb) = v := ⟨_, rfl⟩
      have ht : compressF t.h (des t.mb) = v := by
        rw [← h_eq_of_hashAllValid hst hv, ← mb_eq_of_blockComplete hst hb, hs]
      exact ⟨_, _, execCompress_of_ready hs hv hb, execCompress_of_ready ht hv' hb',
        noResponse_sameValues (clearBlock_sameValues (writeHashState_sameValues hst v))⟩
    · have hb' : ¬ BlockComplete t := mt (blockComplete_iff_of_sameValues hst).mpr hb
      exact ⟨_, _, execCompress_of_incomplete hv hb, execCompress_of_incomplete hv' hb', raise_sameValues hst _⟩
  · have hv' : ¬ HashAllValid t := mt (hashAllValid_iff_of_sameValues hst).mpr hv
    exact ⟨_, _, execCompress_of_noValue hv, execCompress_of_noValue hv', raise_sameValues hst _⟩

theorem exec_sameNext (i : Instr) : SameNext (exec i s) (exec i t) := by
  cases i with
  | init => exact ⟨_, _, rfl, rfl, noResponse_sameValues (writeHashState_sameValues hst iv)⟩
  | seth idx value => exact ⟨_, _, rfl, rfl, noResponse_sameValues (writeHashWord_sameValues hst idx value)⟩
  | geth idx =>
    by_cases hv : s.hval[idx.val] = true
    · refine ⟨_, _, execGeth_of_valid hv, execGeth_of_valid (hst.hval ▸ hv), ?_⟩
      rw [hst.h idx hv]
      exact respond_sameValues hst _
    · exact ⟨_, _, execGeth_of_invalid hv, execGeth_of_invalid (hst.hval ▸ hv), raise_sameValues hst _⟩
  | pushb byte =>
    by_cases hb : s.bptr = 128
    · exact ⟨_, _, execPushb_of_full hb, execPushb_of_full (hst.bptr ▸ hb), raise_sameValues hst _⟩
    · exact ⟨_, _, execPushb_of_room hb, execPushb_of_room (hst.bptr ▸ hb),
        noResponse_sameValues (pushByte_sameValues hst byte)⟩
  | setw idx value => exact ⟨_, _, rfl, rfl, noResponse_sameValues (writeBlockWord_sameValues hst idx value)⟩
  | compress => exact execCompress_sameNext hst
  | getb idx =>
    by_cases hv : s.hval[(digestWordIndex idx).val] = true
    · refine ⟨_, _, execGetb_of_valid hv, execGetb_of_valid (hst.hval ▸ hv), ?_⟩
      rw [hst.h (digestWordIndex idx) hv]
      exact respond_sameValues hst _
    · exact ⟨_, _, execGetb_of_invalid hv, execGetb_of_invalid (hst.hval ▸ hv), raise_sameValues hst _⟩
  | gets =>
    refine ⟨respond (status s) s, respond (status t) t, rfl, rfl, ?_⟩
    rw [status_eq_of_sameValues hst]
    exact respond_sameValues hst _
  | clrb => exact ⟨_, _, rfl, rfl, noResponse_sameValues (clearBlock_sameValues hst)⟩

theorem commandStep_sameNext (c : Command) : SameNext (commandStep c s) (commandStep c t) := by
  cases hf : s.fault with
  | true =>
    have hf' : t.fault = true := hst.fault ▸ hf
    by_cases hc : c.cmd = getsCmd
    · rw [commandStep_gets_of_faulted hf hc, commandStep_gets_of_faulted hf' hc]
      exact exec_sameNext hst .gets
    · exact ⟨_, _, commandStep_ignored_of_faulted hf hc, commandStep_ignored_of_faulted hf' hc,
        noResponse_sameValues hst⟩
  | false =>
    have hf' : t.fault = false := hst.fault ▸ hf
    cases hd : decode c with
    | error e => exact ⟨_, _, commandStep_of_illegal hf hd, commandStep_of_illegal hf' hd, raise_sameValues hst _⟩
    | ok i =>
      rw [commandStep_of_decoded hf hd, commandStep_of_decoded hf' hd]
      exact exec_sameNext hst i

theorem inputStep_sameNext (input : Input) : SameNext (inputStep input s) (inputStep input t) := by
  cases input with
  | command c => exact commandStep_sameNext hst c
  | reset => exact ⟨_, _, rfl, rfl, applyReset_sameValues hst⟩

theorem step_sameNext : SameNext (step s) (step t) := by
  cases hp : s.pending with
  | nil => exact ⟨s, t, step_of_nil hp, step_of_nil (hst.pending ▸ hp), hst⟩
  | cons input rest =>
    rw [step_of_cons hp, step_of_cons (s := t) (hst.pending ▸ hp)]
    exact inputStep_sameNext (withPending_sameValues hst rest) input

end

/-- Settles O47: the two steps answer states that agree, and the first of them is the state the statement names. -/
theorem contentsWithoutValueAreNeverObserved : Obligations.ContentsWithoutValueAreNeverObserved := by
  intro s t s' hst hs
  obtain ⟨u, t', hu, ht, hut⟩ := step_sameNext hst
  obtain rfl : s' = u := Host.Outcome.next.inj (hs.symm.trans hu)
  exact ⟨t', ht, hut⟩

end Sys2Proof.Machine
end

section
/-! PROOFS. What one instruction can do to the state, case by case with what it writes (41_hash_state.md R85 to R88;
42_deserializer.md R91 to R93; 43_compression.md R103; 44_serializer.md R107). The proofs about every instruction go through it. -/

namespace Sys2Proof.Machine

/-- All an instruction can do: respond and write nothing, take a fault with a real cause, or make the writes of its own rule
(R85 to R107). The hash state COMPRESS writes is a variable, so that no proof unfolds COMPRESSF. -/
inductive Effect : Instr → State → State → Prop
  | responds {i s} (v : Word) : Effect i s (respond v s)
  | faults {i s} {c : FaultCause} (hc : c ≠ .none) : Effect i s (raise c s)
  | init {s} : Effect .init s (noResponse (writeHashState iv s))
  | seth {s} (idx : Fin 8) (v : Word) : Effect (.seth idx v) s (noResponse (writeHashWord idx v s))
  | pushb {s} (b : Byte) (hroom : s.bptr ≠ 128) : Effect (.pushb b) s (noResponse (pushByte b s))
  | setw {s} (idx : Fin 16) (v : Word) : Effect (.setw idx v) s (noResponse (writeBlockWord idx v s))
  | compress {s} (v : HashState) (hv : HashAllValid s) (hb : BlockComplete s) :
      Effect .compress s (noResponse (clearBlock (writeHashState v s)))
  | clrb {s} : Effect .clrb s (noResponse (clearBlock s))

theorem exec_effect {i : Instr} {s t : State} (h : exec i s = .next t) : Effect i s t := by
  cases i with
  | init => cases h; exact .init
  | seth idx value => cases h; exact .seth idx value
  | geth idx =>
    by_cases hv : s.hval[idx.val] = true
    · rw [execGeth_of_valid hv] at h; cases h; exact .responds _
    · rw [execGeth_of_invalid hv] at h; cases h; exact .faults (by decide)
  | pushb byte =>
    by_cases hb : s.bptr = 128
    · rw [execPushb_of_full hb] at h; cases h; exact .faults (by decide)
    · rw [execPushb_of_room hb] at h; cases h; exact .pushb byte hb
  | setw idx value => cases h; exact .setw idx value
  | compress =>
    by_cases hv : HashAllValid s
    · by_cases hb : BlockComplete s
      · obtain ⟨v, hf⟩ : ∃ v, compressF s.h (des s.mb) = v := ⟨_, rfl⟩
        rw [execCompress_of_ready hf hv hb] at h; cases h; exact .compress v hv hb
      · rw [execCompress_of_incomplete hv hb] at h; cases h; exact .faults (by decide)
    · rw [execCompress_of_noValue hv] at h; cases h; exact .faults (by decide)
  | getb idx =>
    by_cases hv : s.hval[(digestWordIndex idx).val] = true
    · rw [execGetb_of_valid hv] at h; cases h; exact .responds _
    · rw [execGetb_of_invalid hv] at h; cases h; exact .faults (by decide)
  | gets => cases h; exact .responds _
  | clrb => cases h; exact .clrb

end Sys2Proof.Machine
end

section
/-! PROOFS. The invariant of an engine (10_state.md R25, R26, R29): it holds right after reset, and each named operation keeps it,
then each instruction, the command step, each input and the step. -/

namespace Sys2Proof.Machine

/-! ### Every operation keeps the invariant -/

theorem inv_reset : Inv State.reset where
  bptrRange := by decide
  pushedValid k hk := absurd hk (Nat.not_lt_zero _)
  faultCause := by decide

section
variable {s : State} (hs : Inv s)
include hs

theorem respond_inv (v : Word) : Inv (respond v s) := { hs with }

theorem noResponse_inv : Inv (noResponse s) := { hs with }

theorem withPending_inv (p : List Input) : Inv { s with pending := p } := { hs with }

theorem raise_inv {c : FaultCause} (hc : c ≠ .none) : Inv (raise c s) :=
  { hs with faultCause := by simpa using hc }

theorem writeHashState_inv (v : HashState) : Inv (writeHashState v s) := { hs with }

theorem writeHashWord_inv (idx : Fin 8) (v : Word) : Inv (writeHashWord idx v s) := { hs with }

/-- A byte below the new BPTR is the one just pushed or was below the old one. -/
theorem pushByte_inv (b : Byte) (hroom : s.bptr ≠ 128) : Inv (pushByte b s) := by
  have hlt : s.bptr.toNat < 128 :=
    lt_of_le_of_ne hs.bptrRange fun h => hroom (BitVec.eq_of_toNat_eq h)
  have hbptr := pushByte_bptr_toNat b s hlt
  refine { bptrRange := by omega, pushedValid := fun k hk => ?_, faultCause := hs.faultCause }
  rw [pushByte_mbv_get]
  split_ifs with hptr
  · rfl
  · exact hs.pushedValid k (by omega)

/-- SETW sets valid bits and clears none. -/
theorem writeBlockWord_inv (idx : Fin 16) (v : Word) : Inv (writeBlockWord idx v s) := by
  refine { hs with pushedValid := fun k hk => ?_ }
  rw [writeBlockWord_mbv_get]
  split_ifs
  · rfl
  · exact hs.pushedValid k hk

/-- No byte lies below BPTR = 0. -/
theorem clearBlock_inv : Inv (clearBlock s) where
  bptrRange := Nat.zero_le _
  pushedValid _ hk := absurd hk (Nat.not_lt_zero _)
  faultCause := hs.faultCause

/-! ### Each instruction, the command step, each input, the step -/

theorem exec_inv {i : Instr} {t : State} (h : exec i s = .next t) : Inv t := by
  cases exec_effect h with
  | responds v => exact respond_inv hs v
  | faults hc => exact raise_inv hs hc
  | init => exact noResponse_inv (writeHashState_inv hs iv)
  | seth idx v => exact noResponse_inv (writeHashWord_inv hs idx v)
  | pushb b hroom => exact noResponse_inv (pushByte_inv hs b hroom)
  | setw idx v => exact noResponse_inv (writeBlockWord_inv hs idx v)
  | compress v hv hb => exact noResponse_inv (clearBlock_inv (writeHashState_inv hs v))
  | clrb => exact noResponse_inv (clearBlock_inv hs)

theorem commandStep_inv {c : Command} {t : State} (h : commandStep c s = .next t) : Inv t := by
  rcases commandStep_cases c s with ⟨-, -, hc⟩ | ⟨-, -, hc⟩ | ⟨-, -, hc⟩ | ⟨-, i, -, hc⟩
  all_goals rw [hc] at h
  · cases h; exact respond_inv hs _
  · cases h; exact noResponse_inv hs
  · cases h; exact raise_inv hs (by decide)
  · exact exec_inv hs h

theorem inputStep_inv {input : Input} {t : State} (h : inputStep input s = .next t) : Inv t := by
  cases input with
  | command c => exact commandStep_inv hs h
  | reset => cases h; exact withPending_inv inv_reset s.pending

theorem step_inv {t : State} (h : step s = .next t) : Inv t := by
  cases hp : s.pending with
  | nil => rw [step_of_nil hp] at h; cases h; exact hs
  | cons input rest => rw [step_of_cons hp] at h; exact inputStep_inv (withPending_inv hs rest) h

end

/-- Settles O45: the step takes one input from a state with the invariant, and every input keeps it. -/
theorem everyStepKeepsTheInvariant : Obligations.EveryStepKeepsTheInvariant :=
  fun _ _ hs h => step_inv hs h

end Sys2Proof.Machine
end

section
/-! PROOFS. The access matrix (10_state.md R34) as a frame: field by field the commands that write it, then element by element what
those leave that write a part of a field. -/

namespace Sys2Proof.Machine

/-! ### By field: which commands write it -/

section
variable {i : Instr} {s t : State} (h : exec i s = .next t)
include h

theorem exec_samePending : SamePending s t := by
  rcases exec_cases i s with ⟨v, hv⟩ | ⟨c, -, hc⟩ | ⟨u, hu, -, hp⟩
  · rw [hv] at h; cases h; rfl
  · rw [hc] at h; cases h; rfl
  · rw [hu] at h; cases h; exact hp

/-- FAULT and FCAUSE change by a fault entry only (R132). -/
theorem exec_sameFault_or_faultTaken : SameFault s t ∨ ∃ cause, FaultTaken cause s t := by
  rcases exec_cases i s with ⟨v, hv⟩ | ⟨c, -, hc⟩ | ⟨u, hu, hf, -⟩
  · rw [hv] at h; cases h; exact .inl ⟨rfl, rfl⟩
  · rw [hc] at h; cases h; exact .inr ⟨c, raise_faultTaken c s⟩
  · rw [hu] at h; cases h; exact .inl hf

/-- H and HVAL are written by INIT, SETH and COMPRESS only. -/
theorem exec_sameHash (hinit : i.mnemonic ≠ .init) (hseth : i.mnemonic ≠ .seth) (hcompress : i.mnemonic ≠ .compress) :
    SameHash s t := by
  cases exec_effect h with
  | responds | faults | pushb | setw | clrb => exact ⟨rfl, rfl⟩
  | init => exact absurd rfl hinit
  | seth => exact absurd rfl hseth
  | compress => exact absurd rfl hcompress

/-- MB is written by PUSHB and SETW only. -/
theorem exec_mb (hpushb : i.mnemonic ≠ .pushb) (hsetw : i.mnemonic ≠ .setw) : t.mb = s.mb := by
  cases exec_effect h with
  | responds | faults | init | seth | compress | clrb => rfl
  | pushb => exact absurd rfl hpushb
  | setw => exact absurd rfl hsetw

/-- MBV is written by PUSHB, SETW, CLRB and COMPRESS only. -/
theorem exec_mbv (hpushb : i.mnemonic ≠ .pushb) (hsetw : i.mnemonic ≠ .setw) (hclrb : i.mnemonic ≠ .clrb)
    (hcompress : i.mnemonic ≠ .compress) : t.mbv = s.mbv := by
  cases exec_effect h with
  | responds | faults | init | seth => rfl
  | pushb => exact absurd rfl hpushb
  | setw => exact absurd rfl hsetw
  | compress => exact absurd rfl hcompress
  | clrb => exact absurd rfl hclrb

/-- BPTR is written by PUSHB, CLRB and COMPRESS only. -/
theorem exec_bptr (hpushb : i.mnemonic ≠ .pushb) (hclrb : i.mnemonic ≠ .clrb) (hcompress : i.mnemonic ≠ .compress) :
    t.bptr = s.bptr := by
  cases exec_effect h with
  | responds | faults | init | seth | setw => rfl
  | pushb => exact absurd rfl hpushb
  | compress => exact absurd rfl hcompress
  | clrb => exact absurd rfl hclrb

/-- COMPRESS sets every valid bit of H, and runs only where every one is set already (R103). -/
theorem exec_hval_of_compress (hm : i.mnemonic = .compress) : t.hval = s.hval := by
  cases exec_effect h with
  | responds | faults | pushb | setw | clrb => rfl
  | init | seth => cases hm
  | compress v hv hb =>
    exact Vector.ext fun j hj => (writeHashState_hval_get v s ⟨j, hj⟩).trans (hv ⟨j, hj⟩).symm

end

/-! ### By element: what SETH, PUSHB and SETW leave of what they write -/

/-- SETH writes its own word only. -/
theorem seth_other {idx j : Fin 8} {value : Word} {s t : State} (h : exec (.seth idx value) s = .next t) (hj : j ≠ idx) :
    t.h[j.val] = s.h[j.val] ∧ t.hval[j.val] = s.hval[j.val] := by
  cases h
  exact ⟨writeHashWord_h_other idx j value s hj, (writeHashWord_hval_get idx j value s).trans (if_neg hj)⟩

/-- PUSHB writes the byte at BPTR only. -/
theorem pushb_other {b : Byte} {k : Fin 128} {s t : State} (h : exec (.pushb b) s = .next t) (hk : k.val ≠ s.bptr.toNat) :
    t.mb[k.val] = s.mb[k.val] ∧ t.mbv[k.val] = s.mbv[k.val] := by
  cases exec_effect h with
  | responds | faults => exact ⟨rfl, rfl⟩
  | pushb =>
    exact ⟨(pushByte_mb_get b s k).trans (if_neg hk.symm), (pushByte_mbv_get b s k).trans (if_neg hk.symm)⟩

/-- SETW writes the eight bytes of its word only. -/
theorem setw_other {idx : Fin 16} {value : Word} {k : Fin 128} {s t : State} (h : exec (.setw idx value) s = .next t)
    (hk : k.val / 8 ≠ idx.val) : t.mb[k.val] = s.mb[k.val] ∧ t.mbv[k.val] = s.mbv[k.val] := by
  cases h
  exact ⟨(writeBlockWord_mb_get idx value s k).trans (if_neg hk), (writeBlockWord_mbv_get idx value s k).trans (if_neg hk)⟩

/-- Settles O43, one clause of the frame at a time. -/
theorem accessMatrixFrame : Obligations.AccessMatrixFrame := by
  intro i s t h
  refine ⟨exec_samePending h, exec_sameHash h, exec_hval_of_compress h, ?_, ?_, ?_, exec_mb h, exec_mbv h, exec_bptr h,
    exec_sameFault_or_faultTaken h⟩
  · rintro idx value rfl j hj
    exact seth_other h hj
  · rintro byte rfl k hk
    exact pushb_other h hk
  · rintro idx value rfl k hk
    exact setw_other h hk

end Sys2Proof.Machine
end

section
/-! PROOFS. One HOST for each engine (10_state.md R21; 92_eei_decisions.md D42). What a launch and an event of a platform do is in
Laws/Launch.lean and Laws/Platform.lean; here it is carried over a list of launches and over all engines of a platform. -/

namespace Sys2Proof.Machine

/-- Commands of two HOSTs: one of the two is not the engine's own. -/
theorem launch_of_twoHosts {issued : List Issued} {e : Engine} (h : ∃ i ∈ issued, ∃ j ∈ issued, i.host ≠ j.host) :
    launch issued e = .refused .twoHosts := by
  obtain ⟨i, hi, j, hj, hne⟩ := h
  by_cases hown : i.host = e.host
  · exact launch_of_other ⟨j, hj, fun hj' => hne (hown.trans hj'.symm)⟩
  · exact launch_of_other ⟨i, hi, hown⟩

/-- Launches that all succeed: the first does, and so do the later ones from where it ended. -/
theorem launches_cons_next {issued : List Issued} {later : List (List Issued)} {e : Engine} {rs : List LaunchResult}
    (h : launches (issued :: later) e = .next rs) :
    ∃ r rest, launch issued e = .next r ∧ launches later { e with state := r.final } = .next rest ∧ rs = r :: rest := by
  rw [launches] at h
  split at h
  next r hr =>
    split at h
    next rest hrest => exact ⟨r, rest, hr, hrest, (Host.Outcome.next.inj h).symm⟩
    all_goals cases h
  all_goals cases h

theorem launches_next {ls : List (List Issued)} {e : Engine} {rs : List LaunchResult} (h : launches ls e = .next rs) :
    rs.length = ls.length ∧ ∀ issued ∈ ls, ∀ i ∈ issued, i.host = e.host := by
  induction ls generalizing e rs with
  | nil => cases h; simp
  | cons issued later ih =>
    obtain ⟨r, rest, hr, hrest, rfl⟩ := launches_cons_next h
    obtain ⟨hlen, hhost⟩ := ih hrest
    exact ⟨congrArg (· + 1) hlen, List.forall_mem_cons.mpr ⟨host_of_launch_next hr, hhost⟩⟩

/-- The own HOST's commands go behind what is pending at its engine. -/
theorem platformHost_of_own_get {p : Params} {n : Nat} {cs : List Command} {engines : Platform} {e : Engine}
    (he : engines[n]? = some e) :
    ∃ after, platformHost p e.host n cs engines = .next after ∧
      after[n]? = some { e with state := { e.state with pending := e.state.pending ++ cs.map Input.command } } := by
  refine ⟨_, platformHost_of_own he, ?_⟩
  rw [platformIssue_get he, if_pos rfl]
  rfl

/-- No event changes which HOST an engine serves (log 9). -/
theorem platformEvent_hosts {p : Params} {event : PlatformEvent} {engines after : Platform}
    (h : platformEvent p event engines = .next after) : after.map Engine.host = engines.map Engine.host := by
  apply List.ext_getElem?
  intro n
  rw [List.getElem?_map, List.getElem?_map]
  cases he : engines[n]? with
  | none =>
    have hafter : after[n]? = none := by
      rw [List.getElem?_eq_none_iff] at he ⊢
      rwa [platformEvent_length h]
    rw [hafter]
  | some e =>
    rcases platformEvent_engine h he with ⟨-, t, -, ht⟩ | ⟨-, inputs, ht⟩
    · rw [ht]; rfl
    · rw [ht]; rfl

/-- Settles O49, part by part: a launch, launches one after another, commands issued on a platform, any event. -/
theorem twoHostsAreRefused : Obligations.TwoHostsAreRefused := by
  refine ⟨fun issued e => launch_of_twoHosts, fun issued e => launch_of_other, fun ls e rs => launches_next, ?_,
    fun p event engines after => platformEvent_hosts⟩
  intro p host n cs engines e he
  refine ⟨platformHost_of_other he, ?_⟩
  rintro rfl
  exact platformHost_of_own_get he

end Sys2Proof.Machine
end

section
/-! PROOFS. The table of round constants against the cube roots of the primes (10_state.md R38). The first 80 primes are the primes
below 410 in order; then every row of the table is compared with the cube root of its prime by exact arithmetic. -/

namespace Sys2Proof.Machine

/-! ### The first primes in order -/

/-- The numbers below `n` with a property, in order, are the first values of `Nat.nth`. -/
theorem getElem?_filter_range_eq_nth {p : Nat → Prop} [DecidablePred p] {n t : Nat} (ht : t < Nat.count p n) :
    ((List.range n).filter p)[t]? = some (Nat.nth p t) := by
  have length_eq (m : Nat) : ((List.range m).filter p).length = Nat.count p m :=
    List.countP_eq_length_filter.symm
  induction n with
  | zero => simp at ht
  | succ n ih =>
    rw [List.range_succ, List.filter_append]
    by_cases hlt : t < Nat.count p n
    · rw [List.getElem?_append_left (by rwa [length_eq]), ih hlt]
    · have hp : p n := Nat.count_lt_count_succ_iff.mp (lt_of_le_of_lt (not_lt.mp hlt) ht)
      obtain rfl : t = Nat.count p n := by rw [Nat.count_succ, if_pos hp] at ht; omega
      simp [length_eq, hp, Nat.nth_count]

/-- No number from 2 to `b - 1` other than `n` divides `n`. -/
abbrev PassesTrialDivision (b n : Nat) : Prop := 2 ≤ n ∧ ∀ d < b, 2 ≤ d → d < n → ¬ d ∣ n

/-- Below `b * b`, trial division up to `b` tells the primes: a number that is not prime has a divisor at most its square root. -/
theorem prime_iff_passesTrialDivision {b n : Nat} (hn : n < b * b) : n.Prime ↔ PassesTrialDivision b n := by
  constructor
  · intro hp
    obtain ⟨htwo, hdvd⟩ := Nat.prime_def_lt'.mp hp
    exact ⟨htwo, fun d _ => hdvd d⟩
  · intro ⟨htwo, hdvd⟩
    refine Nat.prime_def_le_sqrt.mpr ⟨htwo, fun d hd hle => ?_⟩
    exact hdvd d (lt_of_le_of_lt hle (Nat.sqrt_lt.mpr hn)) hd (lt_of_le_of_lt hle (Nat.sqrt_lt_self htwo))

/-- The 80 primes below 410. -/
def firstPrimes : List Nat :=
  [2, 3, 5, 7, 11, 13, 17, 19, 23, 29, 31, 37, 41, 43, 47, 53, 59, 61, 67, 71, 73, 79, 83, 89, 97, 101, 103, 107, 109, 113,
   127, 131, 137, 139, 149, 151, 157, 163, 167, 173, 179, 181, 191, 193, 197, 199, 211, 223, 227, 229, 233, 239, 241, 251,
   257, 263, 269, 271, 277, 281, 283, 293, 307, 311, 313, 317, 331, 337, 347, 349, 353, 359, 367, 373, 379, 383, 389, 397,
   401, 409]

theorem filter_prime_range_eq_firstPrimes : (List.range 410).filter (fun n => n.Prime) = firstPrimes := by
  have htest : ∀ n ∈ List.range 410, decide n.Prime = decide (PassesTrialDivision 21 n) := fun n hn => by
    have hlt : n < 410 := List.mem_range.mp hn
    exact decide_eq_decide.mpr (prime_iff_passesTrialDivision (by omega))
  rw [List.filter_congr htest]
  decide +kernel

theorem firstPrimes_getElem? {t : Nat} (ht : t < 80) : firstPrimes[t]? = some (Nat.nth Nat.Prime t) := by
  have hcount : Nat.count Nat.Prime 410 = 80 := by
    rw [Nat.count, List.countP_eq_length_filter, filter_prime_range_eq_firstPrimes]; rfl
  rw [← filter_prime_range_eq_firstPrimes]
  exact getElem?_filter_range_eq_nth (hcount ▸ ht)

/-! ### The table, row by row -/

/-- `root` is floor(cuberoot(p) · 2^64). -/
abbrev IsCubeRoot (p root : Nat) : Prop := root ^ 3 ≤ p * 2 ^ 192 ∧ p * 2 ^ 192 < (root + 1) ^ 3

/-- The whole part of each root is below 8, for the primes are below 512. -/
theorem roundConstant_isCubeRoot_firstPrimes :
    ∀ t < 80, ∃ whole < 8, IsCubeRoot (firstPrimes.getD t 0) (whole * 2 ^ 64 + (roundConstant t).toNat) := by
  decide +kernel

theorem roundConstants_length : roundConstants.length = 80 := by decide

theorem roundConstants_getElem? {t : Nat} (ht : t < 80) : roundConstants[t]? = some (roundConstant t) := by
  have hlt : t < roundConstants.length := roundConstants_length ▸ ht
  rw [roundConstant, List.getD_eq_getElem _ _ hlt, List.getElem?_eq_getElem hlt]

/-- Settles O59: the whole part of the root is what 2^64 divides, and the constant is what remains. -/
theorem roundConstantsAreTheCubeRootsOfPrimes : Obligations.RoundConstantsAreTheCubeRootsOfPrimes := by
  refine ⟨roundConstants_length, fun t ht => ⟨roundConstants_getElem? ht, ?_⟩⟩
  obtain ⟨whole, -, hle, hlt⟩ := roundConstant_isCubeRoot_firstPrimes t ht
  have hprime : firstPrimes.getD t 0 = Nat.nth Nat.Prime t := by
    rw [List.getD_eq_getElem?_getD, firstPrimes_getElem? ht, Option.getD_some]
  rw [hprime] at hle hlt
  refine ⟨_, hle, hlt, ?_⟩
  have hk : (roundConstant t).toNat < 2 ^ 64 := (roundConstant t).isLt
  rw [Nat.mul_add_mod_self_right, Nat.mod_eq_of_lt hk]

end Sys2Proof.Machine
end

section
/-! PROOFS. Commands are performed one at a time, in issue order (20_memory.md R54). A run of the machine over the inputs pending
at its head is those inputs performed in order, and a sequence of commands is that too, response by response. -/

namespace Sys2Proof.Machine

/-! ### Inputs performed in order, and the run of the machine that performs them -/

theorem core_run_succ {k : Nat} {s t : State} (h : step s = .next t) :
    Sys2Proof.core.run (k + 1) s = Sys2Proof.core.run k t := by
  have hcore : Sys2Proof.core.step s = .next t := h
  simp only [Host.Core.run, hcore]

theorem withPending_eq_self {s : State} {p : List Input} (h : s.pending = p) : { s with pending := p } = s := by
  subst h; rfl

theorem performInputs_cons {input : Input} {rest : List Input} {s t : State} (h : inputStep input s = .next t) :
    performInputs (input :: rest) s = performInputs rest t := by
  rw [performInputs, h]

theorem performInputs_append {xs ys : List Input} {s t : State} (h : performInputs xs s = .next t) :
    performInputs (xs ++ ys) s = performInputs ys t := by
  induction xs generalizing s with
  | nil => cases h; rfl
  | cons input xs ih =>
    obtain ⟨u, hu, -⟩ := inputStep_next input s
    rw [performInputs_cons hu] at h
    rw [List.cons_append, performInputs_cons hu, ih h]

/-- As many steps as there are inputs perform them in order, whatever stands behind them (R54). -/
theorem run_of_performInputs {inputs : List Input} {s t : State} (rest : List Input)
    (h : performInputs inputs s = .next t) :
    Sys2Proof.core.run inputs.length { s with pending := inputs ++ rest } = .next { t with pending := rest } := by
  induction inputs generalizing s with
  | nil => cases h; rfl
  | cons input inputs ih =>
    obtain ⟨u, hu, -⟩ := inputStep_next input s
    rw [performInputs_cons hu] at h
    have hstep : step { s with pending := input :: inputs ++ rest } = .next { u with pending := inputs ++ rest } :=
      (step_of_cons (s := { s with pending := input :: inputs ++ rest }) rfl).trans
        (inputStep_with_pending (s := s) (inputs ++ rest) hu)
    exact (core_run_succ hstep).trans (ih h)

/-! ### A sequence of commands is its inputs performed in order -/

/-- Performing commands answers a result that leaves what is pending; it ends where the inputs performed end, with one response
for each command, the one after that command's step. -/
theorem commandSteps_next (cs : List Command) (s : State) : ∃ r, commandSteps cs s = .next r ∧
    r.final.pending = s.pending ∧ r.responses.length = cs.length ∧
    performInputs (cs.map Input.command) s = .next r.final ∧
    ∀ k, k < cs.length → ∃ t, performInputs ((cs.take (k + 1)).map Input.command) s = .next t ∧
      r.responses[k]? = some t.rdata := by
  induction cs generalizing s with
  | nil => exact ⟨_, rfl, rfl, rfl, rfl, fun k hk => absurd hk (Nat.not_lt_zero k)⟩
  | cons c cs ih =>
    obtain ⟨u, hu, hpending⟩ := inputStep_next (.command c) s
    obtain ⟨r, hr, hrest, hlen, hfinal, hresp⟩ := ih u
    refine ⟨_, commandSteps_cons hu hr, hrest.trans hpending, congrArg (· + 1) hlen,
      (performInputs_cons hu).trans hfinal, fun k hk => ?_⟩
    cases k with
    | zero => exact ⟨u, performInputs_cons hu, rfl⟩
    | succ k =>
      obtain ⟨t, ht, hk'⟩ := hresp k (Nat.lt_of_succ_lt_succ hk)
      exact ⟨t, (performInputs_cons hu).trans ht, hk'⟩

/-! ### The two clauses of the statement -/

/-- Commands at the head of what is pending. -/
theorem run_of_commandSteps (cs : List Command) (rest : List Input) (s : State) : ∃ r,
    commandSteps cs { s with pending := rest } = .next r ∧ r.responses.length = cs.length ∧
      Sys2Proof.core.run cs.length { s with pending := cs.map Input.command ++ rest } = .next r.final := by
  obtain ⟨r, hr, hpending, hlen, hfinal, -⟩ := commandSteps_next cs { s with pending := rest }
  have hrun := run_of_performInputs rest hfinal
  rw [withPending_eq_self hpending, List.length_map] at hrun
  exact ⟨r, hr, hlen, hrun⟩

/-- Commands issued behind what is pending: the steps of the inputs before them lead to where the commands begin. -/
theorem run_of_issueAndPerform (cs : List Command) (s : State) : ∃ r,
    issueAndPerform cs s = .next r ∧ r.final.pending = [] ∧ r.responses.length = cs.length ∧
      Sys2Proof.core.run (s.pending.length + cs.length) (issueBehind (cs.map Input.command) s) = .next r.final ∧
      ∀ k, k < cs.length → ∃ t,
        Sys2Proof.core.run (s.pending.length + k + 1) (issueBehind (cs.map Input.command) s) = .next t ∧
          r.responses[k]? = some t.rdata := by
  obtain ⟨u, hu, hempty⟩ := drain_next s
  obtain ⟨r, hr, hpending, hlen, hfinal, hresp⟩ := commandSteps_next cs u
  refine ⟨r, (issueAndPerform_of_drain hu).trans hr, hpending.trans hempty, hlen, ?_, fun k hk => ?_⟩
  · have hrun := run_of_performInputs [] ((performInputs_append hu).trans hfinal)
    rw [List.append_nil, List.length_append, List.length_map, withPending_eq_self (hpending.trans hempty)] at hrun
    exact hrun
  · obtain ⟨t, ht, hk'⟩ := hresp k hk
    have hrun := run_of_performInputs ((cs.drop (k + 1)).map Input.command) ((performInputs_append hu).trans ht)
    rw [List.append_assoc, ← List.map_append, List.take_append_drop, List.length_append, List.length_map,
      List.length_take_of_le hk] at hrun
    exact ⟨_, hrun, hk'⟩

/-- Settles O14: every transport delivers the commands themselves, in order, so both clauses are runs over commands. -/
theorem stepsPerformCommandsInIssueOrder : Obligations.StepsPerformCommandsInIssueOrder :=
  ⟨fun _ cs rest s => run_of_commandSteps cs rest s, fun _ cs s => run_of_issueAndPerform cs s⟩

end Sys2Proof.Machine
end

section
/-! PROOFS. The bytes of a block word (20_memory.md R44, R90): packing eight bytes is positional, in base 256. -/

namespace Sys2Proof.Machine

theorem toNat_append_eq_add {m n : Nat} (x : BitVec m) (y : BitVec n) :
    (x ++ y).toNat = x.toNat * 2 ^ n + y.toNat := by
  rw [BitVec.toNat_append, ← Nat.shiftLeft_add_eq_or_of_lt y.isLt, Nat.shiftLeft_eq]

theorem packWord_toNat (b0 b1 b2 b3 b4 b5 b6 b7 : Byte) :
    (packWord b0 b1 b2 b3 b4 b5 b6 b7).toNat =
      b0.toNat * 2 ^ 56 + b1.toNat * 2 ^ 48 + b2.toNat * 2 ^ 40 + b3.toNat * 2 ^ 32 + b4.toNat * 2 ^ 24 +
        b5.toNat * 2 ^ 16 + b6.toNat * 2 ^ 8 + b7.toNat := by
  simp only [packWord, toNat_append_eq_add]
  ring

theorem serwByte_des (mb : BlockBytes) (i : Fin 16) (j : Nat) (hj : j < 8) :
    serwByte (des mb)[i.val] j = mb[8 * i.val + j] := by
  rw [des_get, serwByte_packWord _ _ _ _ _ _ _ _ j hj]
  interval_cases j <;> rfl

/-- Settles O27: byte by byte, and as a sum. -/
theorem desIsBigEndian : Obligations.DesIsBigEndian := by
  refine fun mb i => ⟨serwByte_des mb i, ?_⟩
  rw [des_get, packWord_toNat]

end Sys2Proof.Machine
end

section
/-! PROOFS. Loading block bytes with PUSHB (20_memory.md R48; 42_deserializer.md R91; 45_host_pseudo.md R109): a sequence of PUSHBs
writes its bytes one after another from BPTR on, which for the bytes of a word is what SETW writes. -/

namespace Sys2Proof.Machine

/-! ### What the word of a PUSHB decodes to (R65, R66) -/

/-- Two rows that agree where both masks look are the same row. -/
theorem opcodeMap_disjoint :
    ∀ r ∈ opcodeMap, ∀ q ∈ opcodeMap, r.pattern &&& q.mask = q.pattern &&& r.mask → r = q := by
  decide

theorem rowSpells_unique {r q : OpcodeRow} {cmd : BitVec 16} (hr : r ∈ opcodeMap) (hq : q ∈ opcodeMap)
    (hrs : rowSpells r cmd = true) (hqs : rowSpells q cmd = true) : r = q := by
  apply opcodeMap_disjoint r hr q hq
  rw [← beq_iff_eq.mp hrs, ← beq_iff_eq.mp hqs, BitVec.and_assoc, BitVec.and_assoc, BitVec.and_comm r.mask]

/-- A word that a row spells decodes to that row's command. -/
theorem decode_of_rowSpells {r : OpcodeRow} {c : Command} (hr : r ∈ opcodeMap) (hs : rowSpells r c.cmd = true) :
    decode c = .ok (instrOf r.mnemonic c) := by
  obtain ⟨q, hq⟩ : ∃ q, opcodeMap.find? (fun q => rowSpells q c.cmd) = some q :=
    Option.isSome_iff_exists.mp (List.find?_isSome.mpr ⟨r, hr, hs⟩)
  have hqr : q = r := rowSpells_unique (List.mem_of_find?_eq_some hq) hr (by simpa using List.find?_some hq) hs
  rw [decode, hq, hqr]

theorem decode_encode_pushb (b : Byte) : decode (encode (.pushb b)) = .ok (.pushb b) := by
  obtain ⟨r, hr, hm, hs⟩ := Laws.EncodingFitsRow.pushb b
  have himm : imm8Of (encode (.pushb b)).cmd = b := by
    ext i hi
    interval_cases i <;> simp [imm8Of, encode]
  rw [decode_of_rowSpells hr hs, hm]
  simp only [Instr.mnemonic, instrOf, himm]

/-! ### A sequence of PUSHBs -/

/-- From `s` to `t` the bytes were written one after another from BPTR on, and BPTR is past them; H and the fault state are as they
were. -/
structure BytesPushed (bytes : List Byte) (s t : State) : Prop where
  bptr   : t.bptr.toNat = s.bptr.toNat + bytes.length
  pushed : ∀ k : Fin 128, s.bptr.toNat ≤ k.val → k.val < s.bptr.toNat + bytes.length →
    bytes[k.val - s.bptr.toNat]? = some t.mb[k.val] ∧ t.mbv[k.val] = true
  kept   : ∀ k : Fin 128, k.val < s.bptr.toNat ∨ s.bptr.toNat + bytes.length ≤ k.val →
    t.mb[k.val] = s.mb[k.val] ∧ t.mbv[k.val] = s.mbv[k.val]
  hash   : SameHash s t
  faults : SameFault s t

theorem bytesPushed_nil (s : State) : BytesPushed [] s s where
  bptr := rfl
  pushed _ hle hlt := absurd hlt (Nat.not_lt.mpr hle)
  kept _ _ := ⟨rfl, rfl⟩
  hash := ⟨rfl, rfl⟩
  faults := ⟨rfl, rfl⟩

theorem bytesPushed_cons {b : Byte} {bytes : List Byte} {s t : State} (hroom : s.bptr.toNat < 128)
    (h : BytesPushed bytes (noResponse (pushByte b s)) t) : BytesPushed (b :: bytes) s t := by
  obtain ⟨hbptr, hpushed, hkept, hhash, hfaults⟩ := h
  have hnext : (noResponse (pushByte b s)).bptr.toNat = s.bptr.toNat + 1 := pushByte_bptr_toNat b s hroom
  rw [hnext] at hbptr hpushed hkept
  have hmb (k : Fin 128) := pushByte_mb_get b s k
  have hmbv (k : Fin 128) := pushByte_mbv_get b s k
  refine ⟨by rw [hbptr, List.length_cons]; omega, fun k hle hlt => ?_, fun k hk => ?_, hhash, hfaults⟩
  · rw [List.length_cons] at hlt
    rcases hle.eq_or_lt with heq | hgt
    · obtain ⟨hb, hv⟩ := hkept k (.inl (by omega))
      rw [heq, Nat.sub_self, hb, hv]
      exact ⟨congrArg some ((hmb k).trans (if_pos heq)).symm, (hmbv k).trans (if_pos heq)⟩
    · have hindex : k.val - s.bptr.toNat = k.val - (s.bptr.toNat + 1) + 1 := by omega
      rw [hindex, List.getElem?_cons_succ]
      exact hpushed k hgt (by omega)
  · rw [List.length_cons] at hk
    obtain ⟨hb, hv⟩ := hkept k (by omega)
    have hne : s.bptr.toNat ≠ k.val := by omega
    exact ⟨hb.trans ((hmb k).trans (if_neg hne)), hv.trans ((hmbv k).trans (if_neg hne))⟩

theorem commandSteps_blockCommands {bytes : List Byte} {s : State} (hf : s.fault = false)
    (hroom : s.bptr.toNat + bytes.length ≤ 128) :
    ∃ r, commandSteps (blockCommands bytes) s = .next r ∧ BytesPushed bytes s r.final := by
  induction bytes generalizing s with
  | nil => exact ⟨_, rfl, bytesPushed_nil s⟩
  | cons b bytes ih =>
    rw [List.length_cons] at hroom
    have hlt : s.bptr.toNat < 128 := by omega
    have hne : s.bptr ≠ 128 := fun h => by rw [h] at hlt; exact absurd hlt (by decide)
    have hnext := pushByte_bptr_toNat b s hlt
    have hstep : commandStep (encode (.pushb b)) s = .next (noResponse (pushByte b s)) :=
      (commandStep_encode (decode_encode_pushb b) hf).trans (execPushb_of_room hne)
    obtain ⟨r, hr, hpushed⟩ := ih (s := noResponse (pushByte b s)) hf (by rw [noResponse_bptr, hnext]; omega)
    exact ⟨_, commandSteps_cons hstep hr, bytesPushed_cons hlt hpushed⟩

/-- The bytes of a word pushed at 8i leave the block as SETW i does. -/
theorem bytesPushed_serw {idx : Fin 16} {v : Word} {s t : State} (hptr : s.bptr.toNat = 8 * idx.val)
    (h : BytesPushed (serw v).toList s t) :
    t.mb = (writeBlockWord idx v s).mb ∧ t.mbv = (writeBlockWord idx v s).mbv := by
  have hbyte (k : Fin 128) : t.mb[k.val] = (writeBlockWord idx v s).mb[k.val] ∧
      t.mbv[k.val] = (writeBlockWord idx v s).mbv[k.val] := by
    rw [writeBlockWord_mb_get, writeBlockWord_mbv_get]
    obtain ⟨-, hpushed, hkept, -, -⟩ := h
    rw [hptr, Vector.length_toList] at hpushed hkept
    split_ifs with hk
    · obtain ⟨hb, hv⟩ := hpushed k (by omega) (by omega)
      have hmod : k.val - 8 * idx.val = k.val % 8 := by omega
      rw [hmod, Vector.getElem?_toList, Vector.getElem?_eq_getElem (Nat.mod_lt _ (by decide)), serw_get] at hb
      exact ⟨(Option.some.inj hb).symm, hv⟩
    · exact hkept k (by omega)
  exact ⟨Vector.ext fun k hk => (hbyte ⟨k, hk⟩).1, Vector.ext fun k hk => (hbyte ⟨k, hk⟩).2⟩

/-- Settles O24: there is room for eight bytes at 8i, and pushed there they are what SETW writes. -/
theorem setwAndEightPushbsAgree : Obligations.SetwAndEightPushbsAgree := by
  intro idx v s hf hptr
  have hroom : s.bptr.toNat + (serw v).toList.length ≤ 128 := by
    rw [hptr, Vector.length_toList]
    omega
  obtain ⟨r, hr, hpushed⟩ := commandSteps_blockCommands hf hroom
  obtain ⟨hmb, hmbv⟩ := bytesPushed_serw hptr hpushed
  exact ⟨r, noResponse (writeBlockWord idx v s), hr, rfl, hmb, hmbv⟩

end Sys2Proof.Machine
end

section
/-! PROOFS. Idempotent commands and side effects (20_memory.md R51), command by command. -/

namespace Sys2Proof.Machine

/-! ### INIT, SETH, SETW and CLRB -/

theorem bytesWithWord_idem (idx : Fin 16) (v : Word) (mb : BlockBytes) :
    bytesWithWord idx v (bytesWithWord idx v mb) = bytesWithWord idx v mb := by
  refine Vector.ext fun k hk => ?_
  simp only [bytesWithWord_get]
  split_ifs <;> rfl

theorem validWithWord_idem (idx : Fin 16) (mbv : Vector Bool 128) :
    validWithWord idx (validWithWord idx mbv) = validWithWord idx mbv := by
  refine Vector.ext fun k hk => ?_
  simp only [validWithWord_get]
  split_ifs <;> rfl

theorem writeHashWord_idem (idx : Fin 8) (v : Word) (s : State) :
    noResponse (writeHashWord idx v (noResponse (writeHashWord idx v s))) = noResponse (writeHashWord idx v s) := by
  simp [writeHashWord, noResponse]

theorem writeBlockWord_idem (idx : Fin 16) (v : Word) (s : State) :
    noResponse (writeBlockWord idx v (noResponse (writeBlockWord idx v s))) = noResponse (writeBlockWord idx v s) := by
  simp [writeBlockWord, noResponse, bytesWithWord_idem, validWithWord_idem]

section
variable {i : Instr} {s t : State} (h : exec i s = .next t)
include h

theorem exec_repeat_of_write
    (hm : i.mnemonic = .init ∨ i.mnemonic = .seth ∨ i.mnemonic = .setw ∨ i.mnemonic = .clrb) : exec i t = .next t := by
  cases i with
  | init => cases h; rfl
  | seth idx v => cases h; exact congrArg Host.Outcome.next (writeHashWord_idem idx v s)
  | setw idx v => cases h; exact congrArg Host.Outcome.next (writeBlockWord_idem idx v s)
  | clrb => cases h; rfl
  | geth | pushb | compress | getb | gets => simp [Instr.mnemonic] at hm

/-! ### GETH, GETB and GETS -/

/-- A read either responds, writing nothing else, and then reads the same again, or it faults. -/
theorem exec_read (hm : i.mnemonic = .geth ∨ i.mnemonic = .getb ∨ i.mnemonic = .gets) :
    (∃ v, t = respond v s ∧ exec i t = .next t) ∨ t = raise .hNoValue s := by
  cases i with
  | geth idx =>
    by_cases hv : s.hval[idx.val] = true
    · rw [execGeth_of_valid hv] at h; cases h
      exact .inl ⟨_, rfl, execGeth_of_valid (s := respond _ s) hv⟩
    · rw [execGeth_of_invalid hv] at h; cases h; exact .inr rfl
  | getb idx =>
    by_cases hv : s.hval[(digestWordIndex idx).val] = true
    · rw [execGetb_of_valid hv] at h; cases h
      exact .inl ⟨_, rfl, execGetb_of_valid (s := respond _ s) hv⟩
    · rw [execGetb_of_invalid hv] at h; cases h; exact .inr rfl
  | gets => cases h; exact .inl ⟨_, rfl, rfl⟩
  | init | seth | pushb | setw | compress | clrb => simp [Instr.mnemonic] at hm

theorem exec_repeat_of_response (hm : i.mnemonic = .geth ∨ i.mnemonic = .getb ∨ i.mnemonic = .gets)
    (hr : t.rdata.isSome = true) : exec i t = .next t ∧ t = { s with rdata := t.rdata } := by
  rcases exec_read h hm with ⟨v, rfl, hrepeat⟩ | rfl
  · exact ⟨hrepeat, rfl⟩
  · simp at hr

theorem exec_fault_of_no_response (hm : i.mnemonic = .geth ∨ i.mnemonic = .getb ∨ i.mnemonic = .gets)
    (hr : t.rdata = none) : t.fault = true := by
  rcases exec_read h hm with ⟨v, rfl, -⟩ | rfl
  · simp at hr
  · rfl

/-! ### PUSHB and COMPRESS -/

theorem exec_bptr_of_pushb (hm : i.mnemonic = .pushb) (hf : t.fault = false) : t.bptr = s.bptr + 1 := by
  cases i with
  | pushb b =>
    by_cases hb : s.bptr = 128
    · rw [execPushb_of_full hb] at h; cases h; cases hf
    · rw [execPushb_of_room hb] at h; cases h; rfl
  | init | seth | geth | setw | compress | getb | gets | clrb => cases hm

/-- COMPRESS leaves the hash state valid and no byte of the block, so the block is incomplete for the next one. -/
theorem exec_compress_twice (hm : i.mnemonic = .compress) (hf : t.fault = false) :
    exec .compress t = .next (raise .blockIncomplete t) := by
  cases i with
  | compress =>
    by_cases hv : HashAllValid s
    · by_cases hb : BlockComplete s
      · obtain ⟨v, hc⟩ : ∃ v, compressF s.h (des s.mb) = v := ⟨_, rfl⟩
        rw [execCompress_of_ready hc hv hb] at h; cases h
        refine execCompress_of_incomplete (fun j => writeHashState_hval_get v s j) fun hcomplete => ?_
        exact absurd (hcomplete 0) (by rw [noResponse_mbv, clearBlock_mbv_get]; decide)
      · rw [execCompress_of_incomplete hv hb] at h; cases h; cases hf
    · rw [execCompress_of_noValue hv] at h; cases h; cases hf
  | init | seth | geth | pushb | setw | getb | gets | clrb => cases hm

end

/-- Settles O44, one clause at a time. -/
theorem idempotentCommandsAndSideEffects : Obligations.IdempotentCommandsAndSideEffects := by
  intro i s t h
  refine ⟨exec_repeat_of_write h, exec_repeat_of_response h, fun hm => exec_fault_of_no_response h ?_,
    fun hm _ => exec_bptr_of_pushb h hm, fun hm _ hf => ⟨_, exec_compress_twice h hm hf, raise_faultTaken _ t⟩⟩
  exact hm.imp_right .inl

end Sys2Proof.Machine
end

section
/-! PROOFS. Engines are independent (20_memory.md R60; 60_exceptions.md R140): the step of one engine replaces that engine by the
result of its own step. -/

namespace Sys2Proof.Machine

theorem platformStep_cases (n : Nat) (p : Platform) :
    platformStep n p = .next p ∨ ∃ e, platformStep n p = .next (p.set n e) := by
  cases he : p[n]? with
  | none => exact .inl (platformStep_of_none he)
  | some e =>
    obtain ⟨t, ht⟩ := step_next e.state
    exact .inr ⟨_, platformStep_of_some he ht⟩

theorem platformStep_others {n : Nat} {p q : Platform} (h : platformStep n p = .next q) :
    q.length = p.length ∧ ∀ m, m ≠ n → q[m]? = p[m]? := by
  rcases platformStep_cases n p with hp | ⟨e, hp⟩
  all_goals
    rw [hp] at h
    cases h
  · exact ⟨rfl, fun _ _ => rfl⟩
  · exact ⟨List.length_set, fun m hm => List.getElem?_set_ne hm.symm⟩

theorem platformStep_own {n : Nat} {p : Platform} {e : Engine} {t : State} (he : p[n]? = some e)
    (ht : step e.state = .next t) :
    ∃ p', platformStep n p = .next p' ∧ p'[n]? = some { e with state := t } :=
  ⟨_, platformStep_of_some he ht, List.getElem?_set_self (List.getElem?_eq_some_iff.mp he).1⟩

/-- Settles O48: what engine n becomes is a function of engine n alone. -/
theorem enginesAreIndependent : Obligations.EnginesAreIndependent := by
  refine ⟨fun n p q h => platformStep_others h, fun n p q e hp hq => ?_⟩
  obtain ⟨t, ht⟩ := step_next e.state
  obtain ⟨p', hp', hgetp⟩ := platformStep_own hp ht
  obtain ⟨q', hq', hgetq⟩ := platformStep_own hq ht
  exact ⟨p', q', t, hp', hq', ht, hgetp, hgetq⟩

end Sys2Proof.Machine
end

section
/-! PROOFS. The command word as a number (30_encoding.md R61 to R69): a row of the opcode map spells a CMD word exactly when the OP is
the row's and the rest is an operand of the row's format. Decode answers that row's command with that operand, or, where no row
spells the word, its case of R67. -/

namespace Sys2Proof.Machine

/-! ### The fields of the formats (R62 to R64) -/

/-- The number of operand bits of a format (R63). The bits between them and OP are reserved. -/
def operandBits : Format → Nat
  | .n => 0
  | .h => 3
  | .w => 4
  | .b => 8
  | .d => 6

/-- The operand a command has in its CMD word (R64), 0 where it has none. -/
def operandOf : Instr → Nat
  | .seth idx _ => idx.val
  | .geth idx => idx.val
  | .pushb byte => byte.toNat
  | .setw idx _ => idx.val
  | .getb idx => idx.val
  | _ => 0

theorem two_pow_operandBits_le (f : Format) : 2 ^ operandBits f ≤ 0x1000 := by
  cases f <;> decide

theorem opOf_toNat (cmd : BitVec 16) : (opOf cmd).toNat = cmd.toNat / 0x1000 := by
  rw [opOf, BitVec.extractLsb'_toNat, Nat.shiftRight_eq_div_pow]
  omega

theorem idx3Of_val (cmd : BitVec 16) : (idx3Of cmd).val = cmd.toNat % 8 := BitVec.extractLsb'_toNat 0 3 cmd

theorem idx4Of_val (cmd : BitVec 16) : (idx4Of cmd).val = cmd.toNat % 16 := BitVec.extractLsb'_toNat 0 4 cmd

theorem imm8Of_toNat (cmd : BitVec 16) : (imm8Of cmd).toNat = cmd.toNat % 256 := BitVec.extractLsb'_toNat 0 8 cmd

theorem idx6Of_val (cmd : BitVec 16) : (idx6Of cmd).val = cmd.toNat % 64 := BitVec.extractLsb'_toNat 0 6 cmd

/-! ### The rows (R65) -/

theorem mask_eq_of_mem : ∀ r ∈ opcodeMap, r.mask = BitVec.allOnes 16 <<< operandBits r.format := by
  decide

theorem pattern_mod_of_mem : ∀ r ∈ opcodeMap, r.pattern.toNat % 0x1000 = 0 := by
  decide

theorem eq_of_mnemonic_eq : ∀ r ∈ opcodeMap, ∀ q ∈ opcodeMap, r.mnemonic = q.mnemonic → r = q := by
  decide

theorem toNat_and_highMask (x : BitVec 16) (k : Nat) :
    (x &&& BitVec.allOnes 16 <<< k).toNat = x.toNat / 2 ^ k * 2 ^ k := by
  have hle : x.toNat / 2 ^ k * 2 ^ k < 2 ^ 16 := (Nat.div_mul_le_self _ _).trans_lt x.isLt
  rw [← BitVec.shiftLeft_ushiftRight, BitVec.toNat_shiftLeft, BitVec.toNat_ushiftRight, Nat.shiftLeft_eq,
    Nat.shiftRight_eq_div_pow, Nat.mod_eq_of_lt hle]

/-- The OP is the row's, and the rest of the word is below the row's number of operands. -/
theorem rowSpells_iff {r : OpcodeRow} (hr : r ∈ opcodeMap) (cmd : BitVec 16) :
    rowSpells r cmd = true ↔
      cmd.toNat / 0x1000 = r.pattern.toNat / 0x1000 ∧ cmd.toNat % 0x1000 < 2 ^ operandBits r.format := by
  have hmod := pattern_mod_of_mem r hr
  rw [rowSpells, beq_iff_eq, ← BitVec.toNat_inj, mask_eq_of_mem r hr, toNat_and_highMask]
  cases r.format <;> simp only [operandBits] <;> omega

/-! ### What decode answers (R66, R67) -/

section
variable {r : OpcodeRow} {c : Command} {i : Instr}

theorem rowSpells_iff_decode (hr : r ∈ opcodeMap) : rowSpells r c.cmd = true ↔ decode c = .ok (instrOf r.mnemonic c) := by
  refine ⟨decode_of_rowSpells hr, fun h => ?_⟩
  obtain ⟨q, hq, hs, hi⟩ := decode_ok_row h
  have hm : r.mnemonic = q.mnemonic := by
    rw [← instrOf_mnemonic r.mnemonic c, hi, instrOf_mnemonic]
  rwa [eq_of_mnemonic_eq r hr q hq hm]

theorem exists_decode_iff : (∃ i, decode c = .ok i) ↔ ∃ r ∈ opcodeMap, rowSpells r c.cmd = true := by
  constructor
  · rintro ⟨i, h⟩
    obtain ⟨r, hr, hs, -⟩ := decode_ok_row h
    exact ⟨r, hr, hs⟩
  · rintro ⟨r, hr, hs⟩
    exact ⟨_, decode_of_rowSpells hr hs⟩

theorem decode_eq_error_iff {e : Illegal} :
    decode c = .error e ↔ (∀ r ∈ opcodeMap, ¬ rowSpells r c.cmd = true) ∧ illegalReason c.cmd = e := by
  rw [← List.find?_eq_none, decode]
  cases opcodeMap.find? fun r => rowSpells r c.cmd with
  | none => simp
  | some r => simp

/-- Where a row spells the word, everything below OP is the operand. -/
theorem operandOf_instrOf (hr : r ∈ opcodeMap) (hs : rowSpells r c.cmd = true) :
    operandOf (instrOf r.mnemonic c) = c.cmd.toNat % 0x1000 := by
  obtain ⟨-, hlt⟩ := (rowSpells_iff hr _).mp hs
  have hformat : ∀ q ∈ opcodeMap, operandOf (instrOf q.mnemonic c) = c.cmd.toNat % 2 ^ operandBits q.format := by
    simp [opcodeMap, operandOf, instrOf, operandBits, idx3Of_val, idx4Of_val, imm8Of_toNat, idx6Of_val, Nat.mod_one]
  rw [hformat r hr]
  cases hf : r.format <;> simp only [hf, operandBits] at hlt ⊢ <;> omega

/-- A legal CMD word is its row's pattern plus the operand of its command. -/
theorem toNat_cmd_of_decode (h : decode c = .ok i) :
    ∃ r ∈ opcodeMap, r.mnemonic = i.mnemonic ∧ c.cmd.toNat = r.pattern.toNat + operandOf i := by
  obtain ⟨r, hr, hs, rfl⟩ := decode_ok_row h
  refine ⟨r, hr, (instrOf_mnemonic _ _).symm, ?_⟩
  have hmod := pattern_mod_of_mem r hr
  obtain ⟨hop, -⟩ := (rowSpells_iff hr _).mp hs
  rw [operandOf_instrOf hr hs]
  omega

/-- Commands that decode to the same command have the same CMD word. -/
theorem cmd_eq_of_decode {d : Command} (hc : decode c = .ok i) (hd : decode d = .ok i) : c.cmd = d.cmd := by
  obtain ⟨r, hr, hrm, hrc⟩ := toNat_cmd_of_decode hc
  obtain ⟨q, hq, hqm, hqd⟩ := toNat_cmd_of_decode hd
  obtain rfl := eq_of_mnemonic_eq r hr q hq (hrm.trans hqm.symm)
  exact BitVec.eq_of_toNat_eq (hrc.trans hqd.symm)

/-! ### The two cases of R67 -/

theorem illegalReason_eq_reservedBits_iff (cmd : BitVec 16) :
    illegalReason cmd = .reservedBits ↔ ∃ r ∈ opcodeMap, cmd.toNat / 0x1000 = r.pattern.toNat / 0x1000 := by
  have hany : (∃ r ∈ opcodeMap, cmd.toNat / 0x1000 = r.pattern.toNat / 0x1000) ↔
      opcodeMap.any (fun r => opOf r.pattern == opOf cmd) = true := by
    simp only [← opOf_toNat, BitVec.toNat_inj, List.any_eq_true, beq_iff_eq, eq_comm (a := opOf cmd)]
  rw [hany, illegalReason]
  split <;> simp [*]

theorem illegalReason_eq_reservedOpcode_iff (cmd : BitVec 16) :
    illegalReason cmd = .reservedOpcode ↔ cmd.toNat / 0x1000 = 0 ∨ 0xA ≤ cmd.toNat / 0x1000 := by
  have hany : ∀ op : BitVec 4,
      (op.toNat = 0 ∨ 0xA ≤ op.toNat) ↔ ¬ opcodeMap.any (fun r => opOf r.pattern == op) = true := by decide
  rw [← opOf_toNat, hany, illegalReason]
  split <;> simp [*]

/-- No row spells a word with a reserved OP. -/
theorem decode_eq_reservedOpcode_iff :
    decode c = .error .reservedOpcode ↔ c.cmd.toNat / 0x1000 = 0 ∨ 0xA ≤ c.cmd.toNat / 0x1000 := by
  rw [decode_eq_error_iff, illegalReason_eq_reservedOpcode_iff, and_iff_right_iff_imp]
  intro hop r hr hs
  have hassigned : ∀ q ∈ opcodeMap, 1 ≤ q.pattern.toNat / 0x1000 ∧ q.pattern.toNat / 0x1000 < 0xA := by decide
  have := hassigned r hr
  have := ((rowSpells_iff hr _).mp hs).1
  omega

/-- The OP is a row's, and the rest is not below the row's number of operands. -/
theorem decode_eq_reservedBits_iff : decode c = .error .reservedBits ↔ ∃ r ∈ opcodeMap,
    c.cmd.toNat / 0x1000 = r.pattern.toNat / 0x1000 ∧ 2 ^ operandBits r.format ≤ c.cmd.toNat % 0x1000 := by
  rw [decode_eq_error_iff, illegalReason_eq_reservedBits_iff]
  constructor
  · rintro ⟨hnone, r, hr, hop⟩
    exact ⟨r, hr, hop, Nat.not_lt.mp fun hlt => hnone r hr ((rowSpells_iff hr _).mpr ⟨hop, hlt⟩)⟩
  · rintro ⟨r, hr, hop, hle⟩
    refine ⟨fun q hq hs => ?_, r, hr, hop⟩
    obtain ⟨hqop, hlt⟩ := (rowSpells_iff hq _).mp hs
    have hsame : ∀ r ∈ opcodeMap, ∀ q ∈ opcodeMap, r.pattern.toNat / 0x1000 = q.pattern.toNat / 0x1000 → r = q := by
      decide
    obtain rfl := hsame r hr q hq (hop.symm.trans hqop)
    omega

end

end Sys2Proof.Machine
end

section
/-! PROOFS. The opcode map against the encoder and against the step (30_encoding.md R64 to R67, R71). -/

namespace Sys2Proof.Machine

/-! ### Decode undoes encode, and encode undoes decode -/

theorem encodingFitsRow (i : Instr) : Laws.EncodingFitsRow.Statement i :=
  match i with
  | .init => Laws.EncodingFitsRow.init
  | .seth idx value => Laws.EncodingFitsRow.seth idx value
  | .geth idx => Laws.EncodingFitsRow.geth idx
  | .pushb byte => Laws.EncodingFitsRow.pushb byte
  | .setw idx value => Laws.EncodingFitsRow.setw idx value
  | .compress => Laws.EncodingFitsRow.compress
  | .getb idx => Laws.EncodingFitsRow.getb idx
  | .gets => Laws.EncodingFitsRow.gets
  | .clrb => Laws.EncodingFitsRow.clrb

theorem toNat_or_operand (p : BitVec 16) {x : Nat} (hx : x < 2 ^ 12) :
    (p ||| BitVec.ofNat 16 x).toNat = p.toNat ||| x := by
  rw [BitVec.toNat_or, BitVec.toNat_ofNat, Nat.mod_eq_of_lt (by omega)]

/-- An operand beside a pattern that has no bit in its place is read back. -/
theorem or_operand_mod {p : BitVec 16} {k x : Nat} (hx : x < 2 ^ k) (hk : k ≤ 12) (hp : p.toNat % 2 ^ k = 0) :
    (p ||| BitVec.ofNat 16 x).toNat % 2 ^ k = x := by
  rw [toNat_or_operand p (hx.trans_le (Nat.pow_le_pow_right two_pos hk)), Nat.or_mod_two_pow, hp, Nat.zero_or,
    Nat.mod_eq_of_lt hx]

/-- Every operand is read back from the word it was written in (R64, R71). -/
theorem instrOf_encode (i : Instr) : instrOf i.mnemonic (encode i) = i := by
  cases i with
  | seth idx value =>
    have hidx := (idx3Of_val _).trans (or_operand_mod (p := 0x2000) (k := 3) idx.isLt (by decide) rfl)
    exact congrArg (Instr.seth · value) (Fin.ext hidx)
  | geth idx =>
    have hidx := (idx3Of_val _).trans (or_operand_mod (p := 0x3000) (k := 3) idx.isLt (by decide) rfl)
    exact congrArg Instr.geth (Fin.ext hidx)
  | pushb byte =>
    have hbyte := (imm8Of_toNat _).trans (or_operand_mod (p := 0x4000) (k := 8) byte.isLt (by decide) rfl)
    rw [BitVec.ofNat_toNat] at hbyte
    exact congrArg Instr.pushb (BitVec.eq_of_toNat_eq hbyte)
  | setw idx value =>
    have hidx := (idx4Of_val _).trans (or_operand_mod (p := 0x5000) (k := 4) idx.isLt (by decide) rfl)
    exact congrArg (Instr.setw · value) (Fin.ext hidx)
  | getb idx =>
    have hidx := (idx6Of_val _).trans (or_operand_mod (p := 0x7000) (k := 6) idx.isLt (by decide) rfl)
    exact congrArg Instr.getb (Fin.ext hidx)
  | init | compress | gets | clrb => rfl

/-- Settles O1: the row of the command spells its word, and its operands are read back. -/
theorem decodeOfEncodeIsTheInstruction : Obligations.DecodeOfEncodeIsTheInstruction := by
  intro i
  obtain ⟨r, hr, hm, hs⟩ := encodingFitsRow i
  rw [decode_of_rowSpells hr hs, hm, instrOf_encode]

theorem encode_instrOf_wdata (m : Mnemonic) (c : Command) (hm : m = .seth ∨ m = .setw) :
    (encode (instrOf m c)).wdata = c.wdata := by
  rcases hm with rfl | rfl <;> rfl

/-- Settles O2: the encoder's word decodes to the same command, so it is the same word; SETH and SETW keep WDATA. -/
theorem encodeOfDecodeIsTheCommandWord : Obligations.EncodeOfDecodeIsTheCommandWord := by
  intro c i h
  have hcmd : (encode i).cmd = c.cmd := cmd_eq_of_decode (decodeOfEncodeIsTheInstruction i) h
  refine ⟨hcmd, fun hm => ?_⟩
  obtain ⟨r, -, -, rfl⟩ := decode_ok_row h
  rw [instrOf_mnemonic] at hm
  exact congrArg₂ Command.mk hcmd (encode_instrOf_wdata _ _ hm)

/-! ### The rows and the illegal words -/

/-- Settles O5: each clause is a row's, with its operand named by the bits it is read from. -/
theorem commandWordSpellsExactlyItsRow : Obligations.CommandWordSpellsExactlyItsRow := by
  intro c
  have hrow (r : OpcodeRow) (hr : r ∈ opcodeMap) :
      c.cmd &&& r.mask = r.pattern ↔ decode c = .ok (instrOf r.mnemonic c) := by
    rw [← rowSpells_iff_decode hr, rowSpells, beq_iff_eq]
  simp only [← idx3Of_val, ← idx4Of_val, ← imm8Of_toNat, ← idx6Of_val, Fin.val_inj, BitVec.toNat_inj, exists_eq_right]
  refine ⟨hrow opcodeMap[0] (by decide), hrow opcodeMap[1] (by decide), hrow opcodeMap[2] (by decide),
    hrow opcodeMap[3] (by decide), hrow opcodeMap[4] (by decide), hrow opcodeMap[5] (by decide),
    hrow opcodeMap[6] (by decide), hrow opcodeMap[7] (by decide), hrow opcodeMap[8] (by decide), fun hop i h => ?_⟩
  rw [decode_eq_reservedOpcode_iff.mpr hop] at h
  cases h

/-- The CMD words of a row: its pattern with each operand. -/
def rowWords (r : OpcodeRow) : List (BitVec 16) :=
  (List.range (2 ^ operandBits r.format)).map fun operand => r.pattern + BitVec.ofNat 16 operand

theorem rowWords_length (r : OpcodeRow) : (rowWords r).length = 2 ^ operandBits r.format := by
  rw [rowWords, List.length_map, List.length_range]

theorem toNat_pattern_add {r : OpcodeRow} (hr : r ∈ opcodeMap) {operand : Nat} (hlt : operand < 2 ^ operandBits r.format) :
    (r.pattern + BitVec.ofNat 16 operand).toNat = r.pattern.toNat + operand := by
  have hmod := pattern_mod_of_mem r hr
  have hpattern := r.pattern.isLt
  have hbits := two_pow_operandBits_le r.format
  rw [BitVec.toNat_add, BitVec.toNat_ofNat]
  omega

theorem rowWords_nodup {r : OpcodeRow} (hr : r ∈ opcodeMap) : (rowWords r).Nodup := by
  refine List.nodup_range.map_on fun x hx y hy h => ?_
  have hxy := congrArg BitVec.toNat h
  rw [toNat_pattern_add hr (List.mem_range.mp hx), toNat_pattern_add hr (List.mem_range.mp hy)] at hxy
  exact Nat.add_left_cancel hxy

theorem mem_rowWords_iff {r : OpcodeRow} (hr : r ∈ opcodeMap) (cmd : BitVec 16) :
    cmd ∈ rowWords r ↔ rowSpells r cmd = true := by
  have hmod := pattern_mod_of_mem r hr
  rw [rowSpells_iff hr, rowWords, List.mem_map]
  constructor
  · rintro ⟨operand, hmem, rfl⟩
    have hlt := List.mem_range.mp hmem
    have hbits := two_pow_operandBits_le r.format
    rw [toNat_pattern_add hr hlt]
    omega
  · rintro ⟨hop, hlt⟩
    refine ⟨cmd.toNat % 0x1000, List.mem_range.mpr hlt, BitVec.eq_of_toNat_eq ?_⟩
    rw [toNat_pattern_add hr hlt]
    omega

theorem opcodeMap_pairwise :
    opcodeMap.Pairwise fun r q => ∀ cmd : BitVec 16, ¬ (rowSpells r cmd = true ∧ rowSpells q cmd = true) := by
  have hnodup : opcodeMap.Nodup := by decide
  exact hnodup.imp_of_mem fun hr hq hne cmd ⟨hrs, hqs⟩ => hne (rowSpells_unique hr hq hrs hqs)

/-- Settles O6: the words are the rows' words, one row after the other. -/
theorem rowsAreDisjointAndSpell356Words : Obligations.RowsAreDisjointAndSpell356Words := by
  refine ⟨opcodeMap_pairwise, fun c => by rw [exists_decode_iff, List.any_eq_true],
    opcodeMap.flatMap rowWords, List.nodup_flatMap.mpr ⟨fun r hr => rowWords_nodup hr, ?_⟩, ?_, fun c => ?_⟩
  · refine opcodeMap_pairwise.imp_of_mem fun hr hq hdisjoint cmd hrw hqw => ?_
    exact hdisjoint cmd ⟨(mem_rowWords_iff hr cmd).mp hrw, (mem_rowWords_iff hq cmd).mp hqw⟩
  · simp only [List.length_flatMap, rowWords_length]
    decide
  · rw [exists_decode_iff, List.mem_flatMap]
    exact exists_congr fun r => and_congr_right fun hr => (mem_rowWords_iff hr c.cmd).symm

/-- Settles O7: the reserved bits of each row's format are those between OP and its operand. -/
theorem illegalWordsTakeIllegalCmd : Obligations.IllegalWordsTakeIllegalCmd := by
  intro c
  refine ⟨decode_eq_reservedOpcode_iff, ?_, fun s e hf hd => ?_⟩
  · rw [decode_eq_reservedBits_iff]
    simp only [opcodeMap, List.exists_mem_cons_iff, List.not_mem_nil, false_and, exists_false, or_false, operandBits,
      BitVec.reduceToNat]
    omega
  · exact ⟨_, commandStep_of_illegal hf hd, raise_faultTaken _ _⟩

/-! ### WDATA (R64) -/

theorem instrOf_withData {m : Mnemonic} (hseth : m ≠ .seth) (hsetw : m ≠ .setw) (c : Command) (w : Word) :
    instrOf m { c with wdata := w } = instrOf m c := by
  cases m with
  | seth => exact absurd rfl hseth
  | setw => exact absurd rfl hsetw
  | init | geth | pushb | compress | getb | gets | clrb => rfl

theorem decode_withData {c : Command} (w : Word) (hseth : ∀ idx value, decode c ≠ .ok (.seth idx value))
    (hsetw : ∀ idx value, decode c ≠ .ok (.setw idx value)) : decode { c with wdata := w } = decode c := by
  cases hd : decode c with
  | error e =>
    rw [decode_eq_error_iff] at hd ⊢
    exact hd
  | ok i =>
    obtain ⟨r, hr, hs, rfl⟩ := decode_ok_row hd
    have hs' : rowSpells r ({ c with wdata := w } : Command).cmd = true := hs
    rw [decode_of_rowSpells hr hs', instrOf_withData]
    · exact fun hm => hseth _ _ (by rw [hd, hm]; rfl)
    · exact fun hm => hsetw _ _ (by rw [hd, hm]; rfl)

/-- Settles O8: the step looks at CMD and at what the command decodes to, and both are the same. -/
theorem unusedWriteDataIsIgnored : Obligations.UnusedWriteDataIsIgnored := by
  intro c w s hseth hsetw
  rw [commandStep, commandStep, decode_withData w hseth hsetw]

/-- Settles O9: each word is evaluated. -/
theorem sampleWordsDecode : Obligations.SampleWordsDecode := by
  unfold Obligations.SampleWordsDecode
  decide

end Sys2Proof.Machine
end

section
/-! PROOFS. The assembler's command forms (30_encoding.md R70, R71): which are accepted, and the words they give. -/

namespace Sys2Proof.Machine

theorem asmCommand_wf_iff (a : AsmCommand) : a.wf = true ↔ a.operands.length = a.mnemonic.operandBounds.length ∧
    ∀ p ∈ a.operands.zip a.mnemonic.operandBounds, p.1 < p.2 := by
  simp only [AsmCommand.wf, AsmCommand.operandCountOk, AsmCommand.operandRangesOk, Bool.and_eq_true, beq_iff_eq,
    List.all_eq_true, decide_eq_true_iff]

/-- The number of operands decides for each mnemonic which range check is left. -/
theorem instrOfAsm_isSome_iff (a : AsmCommand) : (instrOfAsm a).isSome = true ↔ a.wf = true := by
  rw [asmCommand_wf_iff]
  obtain ⟨m, operands⟩ := a
  rcases operands with _ | ⟨x, _ | ⟨y, _ | ⟨z, rest⟩⟩⟩
  · cases m <;> simp [instrOfAsm, Mnemonic.operandBounds]
  · cases m <;> simp [instrOfAsm, Mnemonic.operandBounds]
  · cases m <;> simp [instrOfAsm, Mnemonic.operandBounds]
  · cases m <;> simp [instrOfAsm, Mnemonic.operandBounds]

/-- Settles O4: a form is rejected before encoding or not at all. -/
theorem assemblerAcceptsExactlyWellFormedForms : Obligations.AssemblerAcceptsExactlyWellFormedForms := by
  intro a
  rw [assemble, Option.isSome_map, Bool.eq_iff_iff, instrOfAsm_isSome_iff]

theorem assemble_of_instrOfAsm {a : AsmCommand} {i : Instr} (h : instrOfAsm a = some i) : assemble a = some (encode i) :=
  congrArg (Option.map encode) h

/-- Settles O3: a form in range is encoded from its instruction, whose operand is the number itself. -/
theorem assemblerEmitsTheWordsOfTheTable : Obligations.AssemblerEmitsTheWordsOfTheTable := by
  refine ⟨rfl, rfl, rfl, rfl, fun idx value hi hv => ?_, fun idx hi => ?_, fun byte hb => ?_, fun idx value hi hv => ?_,
    fun idx hi => ?_, by decide⟩
  · exact ⟨_, assemble_of_instrOfAsm (dif_pos ⟨hi, hv⟩), toNat_or_operand _ (by omega), Nat.mod_eq_of_lt hv⟩
  · exact ⟨_, assemble_of_instrOfAsm (dif_pos hi), toNat_or_operand _ (by omega), rfl⟩
  · refine ⟨_, assemble_of_instrOfAsm (if_pos hb), ?_, rfl⟩
    rw [encode, ← BitVec.ofNat_toNat, BitVec.toNat_ofNat, Nat.mod_eq_of_lt hb]
    exact toNat_or_operand _ (by omega)
  · exact ⟨_, assemble_of_instrOfAsm (dif_pos ⟨hi, hv⟩), toNat_or_operand _ (by omega), Nat.mod_eq_of_lt hv⟩
  · exact ⟨_, assemble_of_instrOfAsm (dif_pos hi), toNat_or_operand _ (by omega), rfl⟩

end Sys2Proof.Machine
end

section
/-! The datapath functions, bit by bit (40_functions.md R73 to R82). -/

namespace Sys2Proof.Machine

/-! ### Addition, rotation and shift (R73, R75, R76) -/

theorem add64_toNat (a b : Word) : (add64 a b).toNat = (a.toNat + b.toNat) % 2 ^ 64 :=
  BitVec.toNat_add a b

/-- Below bit 64 - n the right shift brings the bit, and from there on the left shift does. -/
theorem rotr_getLsbD (x : Word) {n i : Nat} (hn : n < 64) (hi : i < 64) :
    (rotr x n).getLsbD i = x.getLsbD ((i + n) % 64) := by
  rw [rotr, BitVec.getLsbD_or, BitVec.getLsbD_ushiftRight, BitVec.getLsbD_shiftLeft, Nat.add_comm n i]
  by_cases h : i + n < 64
  · have hlow : i < 64 - n := by omega
    simp [hlow, Nat.mod_eq_of_lt h]
  · have hwrap : (i + n) % 64 = i - (64 - n) := by omega
    have hhigh : ¬ i < 64 - n := by omega
    simp [hwrap, hhigh, hi, BitVec.getLsbD_of_ge x (i + n) (by omega)]

theorem shr_toNat (x : Word) (n : Nat) : (shr x n).toNat = x.toNat / 2 ^ n := by
  rw [shr, BitVec.toNat_ushiftRight, Nat.shiftRight_eq_div_pow]

/-- The conjunct `i + n < 64` says where the shift fills with zeros. -/
theorem shr_getLsbD (x : Word) (n i : Nat) : (shr x n).getLsbD i = (decide (i + n < 64) && x.getLsbD (i + n)) := by
  rw [shr, BitVec.getLsbD_ushiftRight, Nat.add_comm n i]
  by_cases h : i + n < 64
  · simp [h]
  · simp [h, BitVec.getLsbD_of_ge x (i + n) (by omega)]

/-- Settles O29, one operation at a time. -/
theorem addRotateShiftAreExact : Obligations.AddRotateShiftAreExact :=
  ⟨add64_toNat, fun x _ _ _ hn hi => rotr_getLsbD x hn hi, fun x n _ _ => shr_toNat x n⟩

/-! ### The sigma functions (R77 to R80) -/

/-- Settles O30: each term of the exclusive or is a rotation or a shift, whose bits are known. -/
theorem sigmaFunctionsBitByBit : Obligations.SigmaFunctionsBitByBit := by
  intro x i hi
  have hrot {n : Nat} (hn : n < 64) := rotr_getLsbD x hn hi
  refine ⟨?_, ?_, ?_, ?_⟩
  · rw [sigma0, BitVec.getLsbD_xor, BitVec.getLsbD_xor, hrot (by decide), hrot (by decide), shr_getLsbD]
  · rw [sigma1, BitVec.getLsbD_xor, BitVec.getLsbD_xor, hrot (by decide), hrot (by decide), shr_getLsbD]
  · rw [bigSigma0, BitVec.getLsbD_xor, BitVec.getLsbD_xor, hrot (by decide), hrot (by decide), hrot (by decide)]
  · rw [bigSigma1, BitVec.getLsbD_xor, BitVec.getLsbD_xor, hrot (by decide), hrot (by decide), hrot (by decide)]

/-! ### Choose and majority (R81, R82) -/

theorem ch_getLsbD (e f g : Word) {i : Nat} (hi : i < 64) :
    (ch e f g).getLsbD i = if e.getLsbD i = true then f.getLsbD i else g.getLsbD i := by
  rw [ch, BitVec.getLsbD_xor, BitVec.getLsbD_and, BitVec.getLsbD_and, BitVec.getLsbD_not]
  cases e.getLsbD i <;> simp [hi]

theorem maj_getLsbD (a b c : Word) (i : Nat) : (maj a b c).getLsbD i =
    (((a.getLsbD i && b.getLsbD i) ^^ (a.getLsbD i && c.getLsbD i)) ^^ (b.getLsbD i && c.getLsbD i)) := by
  rw [maj, BitVec.getLsbD_xor, BitVec.getLsbD_xor, BitVec.getLsbD_and, BitVec.getLsbD_and, BitVec.getLsbD_and]

theorem xor_of_pairs_eq_true_iff : ∀ p q r : Bool,
    (((p && q) ^^ (p && r)) ^^ (q && r)) = true ↔ 2 ≤ p.toNat + q.toNat + r.toNat := by
  decide

/-- Settles O31: the bits of the operands decide the bit of the result. -/
theorem chChoosesAndMajIsTheMajority : Obligations.ChChoosesAndMajIsTheMajority := by
  intro x y z i hi
  refine ⟨ch_getLsbD x y z hi, ?_⟩
  rw [maj_getLsbD]
  exact xor_of_pairs_eq_true_iff _ _ _

end Sys2Proof.Machine
end

section
/-! PROOFS. Which commands decode to an instruction (30_encoding.md R64 to R67): those with its CMD word, and for SETH and SETW also
its WDATA. -/

namespace Sys2Proof.Machine

/-- The command of a mnemonic that reads no data is its CMD word, whatever WDATA is (R64). -/
theorem decode_eq_ok_iff_cmd {i : Instr} (c : Command) (hseth : i.mnemonic ≠ .seth) (hsetw : i.mnemonic ≠ .setw) :
    decode c = .ok i ↔ c.cmd = (encode i).cmd := by
  refine ⟨fun h => (encodeOfDecodeIsTheCommandWord c i h).1.symm, fun h => ?_⟩
  have hinstr := instrOf_withData hseth hsetw (encode i) c.wdata
  obtain ⟨r, hr, hm, hs⟩ := encodingFitsRow i
  rw [← h, instrOf_encode] at hinstr
  rw [← h] at hs
  rw [decode_of_rowSpells hr hs, hm, hinstr]

theorem decode_eq_ok_iff_eq_encode {i : Instr} (c : Command) (hdata : i.mnemonic = .seth ∨ i.mnemonic = .setw) :
    decode c = .ok i ↔ c = encode i := by
  constructor
  · exact fun h => ((encodeOfDecodeIsTheCommandWord c i h).2 hdata).symm
  · rintro rfl
    exact decodeOfEncodeIsTheInstruction i

theorem decode_tableCommand {nbits w : Nat} {i : Instr} (h : decodeTableWord nbits w = some i) :
    decode (tableCommand nbits w) = .ok i := by
  rw [decodeTableWord] at h
  split at h
  next j hj => rw [hj, Option.some.inj h]
  next => cases h

end Sys2Proof.Machine
end

section
/-! PROOFS. The STATUS view bit by bit (10_state.md R30; 41_hash_state.md R88): the bits each field shows in, and the reserved bits. -/

namespace Sys2Proof.Machine

/-- A field of `n` bits placed at `offset` shows in its own `n` bits only. -/
theorem placedField_getLsbD {n : Nat} (x : BitVec n) (offset : Nat) {k : Nat} (hk : k < 64) :
    (x.setWidth 64 <<< offset).getLsbD k = if offset ≤ k ∧ k < offset + n then x.getLsbD (k - offset) else false := by
  rw [BitVec.getLsbD_shiftLeft, BitVec.getLsbD_setWidth]
  split_ifs with h
  · simp [hk, h.1, Nat.lt_of_le_of_lt (Nat.sub_le k offset) hk]
  · have habove : offset ≤ k → x.getLsbD (k - offset) = false := fun _ => BitVec.getLsbD_of_ge x _ (by omega)
    by_cases hle : offset ≤ k
    · simp [habove hle]
    · simp [Nat.not_le.mp hle]

/-- The five fields of STATUS, each in the bits it is placed in, no two in the same bits. -/
theorem status_getLsbD (s : State) {k : Nat} (hk : k < 64) :
    (status s).getLsbD k = (
      (if 0 ≤ k ∧ k < 8 then s.bptr.getLsbD k else false) ||
      (if 8 ≤ k ∧ k < 16 then s.hval.toList.getD (k - 8) false else false) ||
      (if 16 ≤ k ∧ k < 17 then [s.fault].getD (k - 16) false else false) ||
      (if 20 ≤ k ∧ k < 24 then (causeCode s.fcause).getLsbD (k - 20) else false) ||
      (if 32 ≤ k ∧ k < 48 then (wval s).toList.getD (k - 32) false else false)) := by
  have hbptr := placedField_getLsbD s.bptr 0 hk
  rw [BitVec.shiftLeft_zero] at hbptr
  simp only [status, bitsToWord, BitVec.getLsbD_or, placedField_getLsbD _ _ hk, BitVec.getLsbD_ofBoolListLE, hbptr,
    Vector.length_toList, List.length_singleton, Nat.zero_add, Nat.sub_zero, Nat.reduceAdd]

theorem extractLsb'_eq_of_getLsbD {n : Nat} {x : BitVec n} {start len : Nat} {y : BitVec len}
    (h : ∀ i, i < len → x.getLsbD (start + i) = y.getLsbD i) : x.extractLsb' start len = y := by
  refine BitVec.eq_of_getLsbD_eq fun i hi => ?_
  rw [BitVec.getLsbD_extractLsb', h i hi, decide_eq_true hi, Bool.true_and]

section
variable (s : State)

theorem status_bptr : (status s).extractLsb' 0 8 = s.bptr :=
  extractLsb'_eq_of_getLsbD fun i hi => by
    rw [status_getLsbD s (by omega)]
    simp (disch := omega) only [if_pos, if_neg, Nat.zero_add, Bool.or_false]

theorem status_hval (i : Fin 8) : (status s).getLsbD (8 + i.val) = s.hval[i.val] := by
  rw [status_getLsbD s (by omega)]
  simp (disch := omega) only [if_pos, if_neg, Bool.false_or, Bool.or_false, Nat.add_sub_cancel_left]
  simp

theorem status_fault : (status s).getLsbD 16 = s.fault :=
  (status_getLsbD s (by decide)).trans (by simp)

theorem status_fcause : (status s).extractLsb' 20 4 = causeCode s.fcause :=
  extractLsb'_eq_of_getLsbD fun i hi => by
    rw [status_getLsbD s (by omega)]
    simp (disch := omega) only [if_pos, if_neg, Bool.false_or, Bool.or_false, Nat.add_sub_cancel_left]

theorem status_wval (i : Fin 16) : (status s).getLsbD (32 + i.val) = wordComplete s i := by
  rw [status_getLsbD s (by omega)]
  simp (disch := omega) only [if_pos, if_neg, Bool.false_or, Bool.or_false, Nat.add_sub_cancel_left]
  simp [wval]

/-- No field is placed in bits 19:17, 31:24 and 63:48 (R88). -/
theorem status_reserved {start len : Nat}
    (h : 17 ≤ start ∧ start + len ≤ 20 ∨ 24 ≤ start ∧ start + len ≤ 32 ∨ 48 ≤ start ∧ start + len ≤ 64) :
    (status s).extractLsb' start len = 0 :=
  extractLsb'_eq_of_getLsbD fun i hi => by
    rw [status_getLsbD s (by omega)]
    simp (disch := omega) only [if_neg, Bool.or_false]
    exact BitVec.getLsbD_zero.symm

/-- A block word is complete exactly when each byte of it holds a value (R88). -/
theorem wordComplete_iff (i : Fin 16) :
    wordComplete s i = true ↔ ∀ k : Fin 128, k.val / 8 = i.val → s.mbv[k.val] = true := by
  have hbytes : wordComplete s i = true ↔ ∀ j : Fin 8, s.mbv[8 * i.val + j.val] = true := by
    simp only [wordComplete, Bool.and_eq_true, Fin.forall_fin_succ, and_assoc]
    simp
  rw [hbytes]
  constructor
  · intro h k hk
    have hplace : k.val = 8 * i.val + k.val % 8 := by omega
    simpa only [← hplace] using h ⟨k.val % 8, by omega⟩
  · intro h j
    exact h ⟨8 * i.val + j.val, by omega⟩ (by simp only; omega)

end

end Sys2Proof.Machine
end

section
/-! PROOFS. The commands on the hash state and the status view (41_hash_state.md R85 to R88): INIT, SETH, GETH, GETS. -/

namespace Sys2Proof.Machine

/-! ### SETHs one after another (R86) -/

/-- SETHs on an engine that is not faulted make their writes in order. -/
theorem commandSteps_seths (v : HashState) (idxs : List (Fin 8)) {s : State} (hf : s.fault = false) : ∃ r,
    commandSteps (idxs.map fun i => encode (.seth i v[i.val])) s = .next r ∧
      r.final = idxs.foldl (fun u i => noResponse (writeHashWord i v[i.val] u)) s := by
  induction idxs generalizing s with
  | nil => exact ⟨_, rfl, rfl⟩
  | cons i idxs ih =>
    obtain ⟨r, hr, hfinal⟩ := ih (s := noResponse (writeHashWord i v[i.val] s)) hf
    exact ⟨_, commandSteps_cons (commandStep_encode (decodeOfEncodeIsTheInstruction _) hf) hr, hfinal⟩

theorem set_all_eq {α : Type} (x y : Vector α 8) :
    (((((((x.set 0 y[0]).set 1 y[1]).set 2 y[2]).set 3 y[3]).set 4 y[4]).set 5 y[5]).set 6 y[6]).set 7 y[7] = y := by
  ext i hi
  interval_cases i <;> simp

/-- The eight words written one after another, with their valid bits, are the hash state written at once. -/
theorem foldl_writeHashWord_finRange (v : HashState) (s : State) :
    (List.finRange 8).foldl (fun u i => noResponse (writeHashWord i v[i.val] u)) s = noResponse (writeHashState v s) :=
  congrArg₂ (fun h hval => noResponse { s with h := h, hval := hval }) (set_all_eq s.h v)
    (set_all_eq s.hval (Vector.replicate 8 true))

/-- Settles O17: one write with its frame, and the eight writes of IV are INIT's. -/
theorem sethWritesOneHashWord : Obligations.SethWritesOneHashWord := by
  refine ⟨fun idx value c => ?_, fun idx value s => ?_, fun s hf => ?_⟩
  · rw [decode_eq_ok_iff_eq_encode c (.inl rfl), encode, Command.mk.injEq]
  · exact ⟨_, rfl, writeHashWord_h_same idx value s, (writeHashWord_hval_get idx idx value s).trans (if_pos rfl),
      fun i hi => seth_other rfl hi, rfl, ⟨rfl, rfl, rfl⟩, ⟨rfl, rfl⟩, rfl⟩
  · obtain ⟨r, hr, hfinal⟩ := commandSteps_seths iv (List.finRange 8) hf
    rw [foldl_writeHashWord_finRange] at hfinal
    exact ⟨r, hr, congrArg Host.Outcome.next hfinal.symm⟩

/-! ### INIT, GETH and GETS (R85, R87, R88) -/

/-- Settles O20: the response is STATUS, read field by field. -/
theorem getsRespondsTheStatusFields : Obligations.GetsRespondsTheStatusFields := by
  refine ⟨fun c => decode_eq_ok_iff_cmd c (by decide) (by decide), fun s => ⟨_, status s, rfl, respond_responded _ s,
    status_bptr s, status_hval s, status_fault s, status_reserved s (by omega), ?_, status_reserved s (by omega),
    fun i => ?_, status_reserved s (by omega)⟩⟩
  · rw [status_fcause]
    cases s.fcause <;> rfl
  · rw [status_wval, wordComplete_iff]

/-- Settles O16: what INIT writes does not depend on what was there, so a second INIT writes the same. -/
theorem initLoadsTheInitializationVector : Obligations.InitLoadsTheInitializationVector :=
  ⟨fun c => decode_eq_ok_iff_cmd c (by decide) (by decide), fun s => ⟨_, rfl, rfl, rfl, rfl, rfl, rfl, rfl, rfl, rfl,
    writeHashState_hval_get iv s, rfl, ⟨rfl, rfl, rfl⟩, ⟨rfl, rfl⟩, rfl, rfl⟩⟩

/-- Settles O19: the word's own valid bit decides, and a response leaves it as it was. -/
theorem gethRespondsOrFaults : Obligations.GethRespondsOrFaults := by
  refine ⟨fun idx c => decode_eq_ok_iff_cmd c nofun nofun, fun idx s => ⟨fun h => ?_, fun h => ?_⟩⟩
  · exact ⟨_, execGeth_of_valid h, respond_responded _ s, execGeth_of_valid (s := respond s.h[idx.val] s) h⟩
  · exact ⟨_, execGeth_of_invalid (Bool.eq_false_iff.mp h), raise_faultTaken _ s⟩

end Sys2Proof.Machine
end

section
/-! PROOFS. The step with a command at the head of what is pending (41_hash_state.md R84; 20_memory.md R54). -/

namespace Sys2Proof.Machine

/-- Settles O10: the step takes the oldest input, and the command step performs what it decodes to. -/
theorem stepRunsTheDecodedCommand : Obligations.StepRunsTheDecodedCommand :=
  fun _ _ _ _ hp hf hd => (step_of_cons hp).trans (commandStep_of_decoded hf hd)

/-- Settles O11 (logs 4 and 8): the word placed in front is the oldest input, and taking it leaves the state it was placed in. -/
theorem fetchedWordIsWhatTheStepRuns : Obligations.FetchedWordIsWhatTheStepRuns :=
  fun s nbits w i hf hd =>
    stepRunsTheDecodedCommand (s.withFetchWord nbits w) _ s.pending i rfl hf (decode_tableCommand hd)

/-- Settles O13, one equation of the command step for each of its four cases. -/
theorem commandStepFollowsItsRule : Obligations.CommandStepFollowsItsRule := by
  intro c s rest
  have hstep : step { s with pending := .command c :: rest } = commandStep c { s with pending := rest } :=
    step_of_cons (s := { s with pending := .command c :: rest }) rfl
  rw [hstep]
  exact ⟨fun hf hc => commandStep_gets_of_faulted hf hc, fun hf hc => commandStep_ignored_of_faulted hf hc,
    fun e hf hd => ⟨_, commandStep_of_illegal hf hd, raise_faultTaken _ _⟩, fun i hf hd => commandStep_of_decoded hf hd⟩

end Sys2Proof.Machine
end

section
/-! PROOFS. The block buffer (42_deserializer.md R90 to R94): DES and SERW undo each other, the commands PUSHB, SETW and CLRB with
their frames, and completeness as STATUS shows it. -/

namespace Sys2Proof.Machine

/-! ### DES and SERW (R90; 44_serializer.md R106) -/

/-- A block word whose eight bytes are the bytes of a word packs to that word (R44). -/
theorem des_eq_of_serwByte {mb : BlockBytes} {i : Fin 16} {v : Word}
    (h : ∀ k : Fin 128, k.val / 8 = i.val → mb[k.val] = serwByte v (k.val % 8)) : (des mb)[i.val] = v := by
  have hbyte (j : Fin 8) : mb[8 * i.val + j.val] = serwByte v j.val := by
    have hmod : (8 * i.val + j.val) % 8 = j.val := by omega
    simpa only [hmod] using h ⟨8 * i.val + j.val, by omega⟩ (by simp only; omega)
  rw [des_get, ← packWord_serwByte v]
  congr 1
  exacts [hbyte 0, hbyte 1, hbyte 2, hbyte 3, hbyte 4, hbyte 5, hbyte 6, hbyte 7]

/-- Settles O28: byte 8i + j of the block is byte j of word i, both ways. -/
theorem desAndSerwAreInverse : Obligations.DesAndSerwAreInverse := by
  refine ⟨fun m => Vector.ext fun i hi => ?_, fun mb => Vector.ext fun k hk => ?_⟩
  · refine des_eq_of_serwByte (i := ⟨i, hi⟩) fun k hk => ?_
    simp only [Vector.getElem_ofFn, serw_get, hk]
  · have hplace : 8 * (k / 8) + k % 8 = k := Nat.div_add_mod k 8
    rw [Vector.getElem_ofFn, serw_get, serwByte_des mb ⟨k / 8, by omega⟩ (k % 8) (by omega)]
    simp only [hplace]

/-! ### PUSHB, SETW and CLRB (R91 to R93) -/

/-- Settles O21: the byte at BPTR reads back, the others by PUSHB's frame, and at 128 the fault entry changes nothing else. -/
theorem pushbAppendsOneByteOrOverflows : Obligations.PushbAppendsOneByteOrOverflows := by
  refine ⟨fun b c => decode_eq_ok_iff_cmd c nofun nofun, fun b s => ⟨fun hroom => ?_, fun hfull => ?_⟩⟩
  · have hne : s.bptr ≠ 128 := fun h => by rw [h] at hroom; exact absurd hroom (by decide)
    exact ⟨_, execPushb_of_room hne,
      fun k hk => ⟨(pushByte_mb_get b s k).trans (if_pos hk.symm), (pushByte_mbv_get b s k).trans (if_pos hk.symm)⟩,
      fun k hk => pushb_other (execPushb_of_room hne) hk, pushByte_bptr_toNat b s hroom,
      rfl, ⟨rfl, rfl⟩, ⟨rfl, rfl⟩, rfl⟩
  · exact ⟨_, execPushb_of_full (BitVec.eq_of_toNat_eq hfull), raise_faultTaken _ s⟩

theorem des_writeBlockWord_same (idx : Fin 16) (v : Word) (s : State) : (des (writeBlockWord idx v s).mb)[idx.val] = v :=
  des_eq_of_serwByte fun k hk => (writeBlockWord_mb_get idx v s k).trans (if_pos hk)

/-- Settles O22: the word's own bytes read back, the others by SETW's frame, and DES packs the bytes again. -/
theorem setwWritesOneBlockWordBigEndian : Obligations.SetwWritesOneBlockWordBigEndian := by
  refine ⟨fun idx value c => ?_, fun idx value s => ?_⟩
  · rw [decode_eq_ok_iff_eq_encode c (.inr rfl), encode, Command.mk.injEq]
  · exact ⟨_, rfl,
      fun k hk => ⟨(writeBlockWord_mb_get idx value s k).trans (if_pos hk),
        (writeBlockWord_mbv_get idx value s k).trans (if_pos hk)⟩,
      fun k hk => setw_other rfl hk, des_writeBlockWord_same idx value s, rfl, rfl, ⟨rfl, rfl⟩, ⟨rfl, rfl⟩, rfl⟩

theorem clearBlock_of_empty {s : State} (hmbv : ∀ k : Fin 128, s.mbv[k.val] = false) (hbptr : s.bptr = 0) :
    clearBlock s = s := by
  have hnone : s.mbv = Vector.replicate 128 false :=
    Vector.ext fun k hk => (hmbv ⟨k, hk⟩).trans (clearBlock_mbv_get s ⟨k, hk⟩).symm
  rw [clearBlock, ← hnone, ← hbptr]

/-- Settles O23 (log 2 for the bytes of MB, which stay): only MBV and BPTR are written, and on an empty buffer they are what they
were. -/
theorem clrbDiscardsTheBlock : Obligations.ClrbDiscardsTheBlock := by
  refine ⟨fun c => decode_eq_ok_iff_cmd c nofun nofun, fun s => ⟨_, rfl, clearBlock_mbv_get s, rfl, rfl, rfl, ⟨rfl, rfl⟩,
    ⟨rfl, rfl⟩, rfl, fun hmbv hbptr => ?_⟩⟩
  exact congrArg noResponse (clearBlock_of_empty hmbv hbptr)

/-! ### Completeness (R94; 43_compression.md R103) -/

/-- WVAL is all ones exactly when every block word is complete (R88). -/
theorem status_wval_eq_allOnes_iff (s : State) :
    (status s).extractLsb' 32 16 = BitVec.allOnes 16 ↔ ∀ i : Fin 16, wordComplete s i = true := by
  constructor
  · intro h i
    have hbit : ((status s).extractLsb' 32 16).getLsbD i.val = true := by
      rw [h, BitVec.getLsbD_allOnes, decide_eq_true i.isLt]
    rwa [BitVec.getLsbD_extractLsb', decide_eq_true i.isLt, Bool.true_and, status_wval] at hbit
  · intro h
    refine extractLsb'_eq_of_getLsbD fun i hi => ?_
    rw [status_wval s ⟨i, hi⟩, h, BitVec.getLsbD_allOnes, decide_eq_true hi]

/-- R94: each block byte is in one block word, so all words are complete exactly when all bytes hold a value. -/
theorem status_wval_eq_allOnes_iff_blockComplete (s : State) :
    (status s).extractLsb' 32 16 = BitVec.allOnes 16 ↔ BlockComplete s := by
  simp only [status_wval_eq_allOnes_iff, wordComplete_iff]
  exact ⟨fun h k => h (blockWordOf k) k rfl, fun h _ k _ => h k⟩

/-- With every hash word valid and no fault yet, COMPRESS takes BLOCK_INCOMPLETE exactly on an incomplete block (R103). -/
theorem execCompress_faultTaken_blockIncomplete_iff {s : State} (hval : HashAllValid s) (hf : s.fault = false) :
    (∃ t, exec .compress s = .next t ∧ FaultTaken .blockIncomplete s t) ↔ ¬ BlockComplete s := by
  constructor
  · rintro ⟨t, ht, htaken⟩ hb
    obtain ⟨v, hv⟩ : ∃ v, compressF s.h (des s.mb) = v := ⟨_, rfl⟩
    obtain rfl := Host.Outcome.next.inj ((execCompress_of_ready hv hval hb).symm.trans ht)
    exact Bool.false_ne_true (hf.symm.trans htaken.fault)
  · exact fun hb => ⟨_, execCompress_of_incomplete hval hb, raise_faultTaken _ s⟩

/-- Settles O25: WVAL all ones is completeness, which COMPRESS checks once the hash state holds values. -/
theorem completenessIsWvalAllOnes : Obligations.CompletenessIsWvalAllOnes := by
  intro s
  have hwval := status_wval_eq_allOnes_iff_blockComplete s
  exact ⟨hwval, fun hval hf => (execCompress_faultTaken_blockIncomplete_iff hval hf).trans hwval.not.symm⟩

end Sys2Proof.Machine
end

section
/-! PROOFS. The compression function (43_compression.md R95 to R102). The copy of R96 and the recurrence of R97 leave one choice of
the 80 schedule words, and the round equations of R100 one choice of the working variables after each round. So whatever follows
these rules, the window of R98 among them, gives COMPRESSF. -/

namespace Sys2Proof.Machine

/-! ### The schedule follows its rules (R96, R97) -/

theorem isPrefix_extendSchedule (n : Nat) (w : List Word) : w <+: extendSchedule n w := by
  induction n generalizing w with
  | zero => exact List.prefix_rfl
  | succ n ih => exact (List.prefix_append w _).trans (ih _)

/-- Each word of an extension is made from the words before it. -/
theorem extendSchedule_get_eq_next {n t : Nat} {w : List Word} (hle : w.length ≤ t) (hlt : t < w.length + n) :
    (extendSchedule n w)[t]? = some (scheduleNext ((extendSchedule n w).take t)) := by
  induction n generalizing w with
  | zero => omega
  | succ n ih =>
    rcases hle.eq_or_lt with rfl | hgt
    · have hfirst : (extendSchedule (n + 1) w).take w.length = w :=
        (List.prefix_iff_eq_take.mp (isPrefix_extendSchedule (n + 1) w)).symm
      rw [hfirst, extendSchedule, extendSchedule_prefix n _ _ (by simp), List.getElem?_concat_length]
    · exact ih (w := w ++ [scheduleNext w]) (by simpa using hgt) (by simp; omega)

/-- R97 on the first `t` words of a list that has them. -/
theorem scheduleNext_take {w : List Word} {t : Nat} (h16 : 16 ≤ t) (ht : t ≤ w.length) :
    scheduleNext (w.take t) =
      w.getD (t - 16) 0 + sigma0 (w.getD (t - 15) 0) + w.getD (t - 7) 0 + sigma1 (w.getD (t - 2) 0) := by
  have hback (d : Nat) (hd : 0 < d) : (w.take t).getD (t - d) 0 = w.getD (t - d) 0 := by
    simp only [List.getD_eq_getElem?_getD, List.getElem?_take_of_lt (Nat.sub_lt (by omega : 0 < t) hd)]
  rw [scheduleNext, List.length_take_of_le ht, hback 16 (by decide), hback 15 (by decide), hback 7 (by decide),
    hback 2 (by decide)]
  rfl

theorem schedule_length (m : MessageBlock) : (schedule m).length = 80 := by
  rw [schedule, extendSchedule_length, Vector.length_toList]

theorem schedule_get (m : MessageBlock) {t : Nat} (ht : t < 80) : (schedule m)[t]? = some ((schedule m).getD t 0) := by
  rw [List.getD_eq_getElem _ _ (by rwa [schedule_length]), List.getElem?_eq_getElem]

/-- Words that follow the copy of R96 and the recurrence of R97. -/
structure FollowsSchedule (m : MessageBlock) (w : Nat → Word) : Prop where
  block      : ∀ t : Fin 16, w t.val = m[t.val]
  recurrence : ∀ t : Nat, 16 ≤ t → t < 80 → w t = w (t - 16) + sigma0 (w (t - 15)) + w (t - 7) + sigma1 (w (t - 2))

theorem schedule_followsSchedule (m : MessageBlock) : FollowsSchedule m fun t => (schedule m).getD t 0 where
  block t := by
    have hcopy : (schedule m)[t.val]? = some m[t.val] := by
      rw [schedule, extendSchedule_prefix 64 _ _ (by simp), Vector.getElem?_toList, Vector.getElem?_eq_getElem t.isLt]
    exact Option.some.inj ((schedule_get m (by omega)).symm.trans hcopy)
  recurrence t h16 ht := by
    have hnext : (schedule m)[t]? = some (scheduleNext ((schedule m).take t)) :=
      extendSchedule_get_eq_next (by simpa using h16) (by simpa using ht)
    rw [scheduleNext_take h16 (by rw [schedule_length]; omega)] at hnext
    exact Option.some.inj ((schedule_get m ht).symm.trans hnext)

/-- The two rules leave one choice of each word. -/
theorem FollowsSchedule.unique {m : MessageBlock} {w x : Nat → Word} (hw : FollowsSchedule m w) (hx : FollowsSchedule m x)
    (t : Nat) (ht : t < 80) : w t = x t := by
  induction t using Nat.strong_induction_on with
  | _ t ih =>
    rcases Nat.lt_or_ge t 16 with h16 | h16
    · exact (hw.block ⟨t, h16⟩).trans (hx.block ⟨t, h16⟩).symm
    · rw [hw.recurrence t h16 ht, hx.recurrence t h16 ht, ih (t - 16) (by omega) (by omega),
        ih (t - 15) (by omega) (by omega), ih (t - 7) (by omega) (by omega), ih (t - 2) (by omega) (by omega)]

theorem FollowsSchedule.get_schedule {m : MessageBlock} {w : Nat → Word} (hw : FollowsSchedule m w) {t : Nat} (ht : t < 80) :
    (schedule m)[t]? = some (w t) :=
  (schedule_get m ht).trans (congrArg some ((schedule_followsSchedule m).unique hw t ht))

theorem scheduleNext_replicate_zero (k : Nat) : scheduleNext (List.replicate k 0) = 0 := by
  have hget (i : Nat) : (List.replicate k (0 : Word)).getD i 0 = 0 := by
    rw [List.getD_eq_getElem?_getD, List.getElem?_replicate]
    split_ifs <;> rfl
  simp only [scheduleNext, hget]
  decide

theorem extendSchedule_replicate_zero (n k : Nat) :
    extendSchedule n (List.replicate k 0) = List.replicate (k + n) 0 := by
  induction n generalizing k with
  | zero => rfl
  | succ n ih => rw [extendSchedule, scheduleNext_replicate_zero, ← List.replicate_succ', ih, Nat.succ_add_eq_add_succ]

/-- Settles O32: the schedule follows R96 and R97, and zeros extend by zeros. -/
theorem scheduleFollowsTheRecurrence : Obligations.ScheduleFollowsTheRecurrence := by
  refine ⟨?_, fun m => ?_⟩
  · rw [schedule, Vector.toList_replicate, extendSchedule_replicate_zero]
  · obtain ⟨hblock, hrec⟩ := schedule_followsSchedule m
    exact ⟨schedule_length m, fun t => (schedule_get m (by omega)).trans (congrArg some (hblock t)),
      fun t h16 ht => (schedule_get m ht).trans (congrArg some (hrec t h16 ht))⟩

/-! ### The 16-word window (R98) -/

/-- A window that starts as the block and shifts as R98 says. -/
structure FollowsWindow (m : MessageBlock) (x : Nat → MessageBlock) : Prop where
  start : x 0 = m
  shift : ∀ (t j : Nat) (h : j < 15), (x (t + 1))[j] = (x t)[j + 1]
  enter : ∀ t : Nat, (x (t + 1))[15] = (x t)[0] + sigma0 (x t)[1] + (x t)[9] + sigma1 (x t)[14]

theorem windowAt_followsWindow (m : MessageBlock) : FollowsWindow m (windowAt m) where
  start := rfl
  shift t j h := by simp [windowAt, windowShift, h]
  enter t := by simp [windowAt, windowShift, add64]

section
variable {m : MessageBlock} {x : Nat → MessageBlock} (hx : FollowsWindow m x)
include hx

/-- The word at place j is at place 0 after j rounds. -/
theorem FollowsWindow.get_eq_head (t j : Nat) (hj : j < 16) : (x t)[j] = (x (t + j))[0] := by
  induction j generalizing t with
  | zero => rfl
  | succ j ih => rw [← hx.shift t j (by omega), ih (t + 1) (by omega), Nat.succ_add_eq_add_succ]

/-- The heads of the window follow the schedule's rules: the word that enters in round t is read 16 rounds later. -/
theorem FollowsWindow.followsSchedule : FollowsSchedule m fun t => (x t)[0] where
  block t := by
    have hhead := hx.get_eq_head 0 t.val t.isLt
    rw [Nat.zero_add] at hhead
    rw [← hhead, hx.start]
  recurrence t h16 _ := by
    obtain ⟨r, rfl⟩ := Nat.exists_eq_add_of_le' h16
    have henter := hx.enter r
    rw [hx.get_eq_head (r + 1) 15 (by decide), hx.get_eq_head r 1 (by decide), hx.get_eq_head r 9 (by decide),
      hx.get_eq_head r 14 (by decide)] at henter
    exact henter

end

theorem compressFWindow_eq_compressF (hin : HashState) (m : MessageBlock) : compressFWindow hin m = compressF hin m :=
  feedForward_afterRounds_congr hin (loadWorking hin) 80
    ((windowAt_followsWindow m).followsSchedule.unique (schedule_followsSchedule m))

/-- Settles O33: the heads of the window are the schedule, and place j of the window is the head j rounds later. -/
theorem windowSchedulerIsEquivalent : Obligations.WindowSchedulerIsEquivalent := by
  refine fun hin m => ⟨fun x hstart hshift henter => ?_, compressFWindow_eq_compressF hin m⟩
  have hx : FollowsWindow m x := ⟨hstart, hshift, henter⟩
  refine ⟨fun t ht => hx.followsSchedule.get_schedule ht, fun t ht j => ?_⟩
  rw [hx.get_eq_head t j.val j.isLt]
  exact hx.followsSchedule.get_schedule (by omega)

/-! ### The 80 rounds (R99 to R102) -/

/-- Working variables that go through the rounds one after another are those of `afterRounds`. -/
theorem afterRounds_of_compressRounds {w : Nat → Word} {v : Nat → Working} {start : Working} {n : Nat} (h0 : v 0 = start)
    (h : ∀ t, t < n → v (t + 1) = compressRound (roundConstant t) (w t) (v t)) : v n = afterRounds w start n := by
  induction n with
  | zero => exact h0
  | succ n ih => rw [h n (Nat.lt_succ_self n), ih fun t ht => h t (Nat.lt_succ_of_lt ht), afterRounds]

theorem compressF_of_followsSchedule {hin : HashState} {m : MessageBlock} {w : Nat → Word} (hw : FollowsSchedule m w) :
    compressF hin m = feedForward hin (afterRounds w (loadWorking hin) 80) :=
  compressF_of_rounds (afterRounds_congr _ 80 (hw.unique (schedule_followsSchedule m)))

/-- Settles O34: the round equations are `compressRound`'s, field by field, so 80 of them are the 80 rounds. -/
theorem compressionFunctionIsTheEightyRounds : Obligations.CompressionFunctionIsTheEightyRounds := by
  intro hin m w v hblock hrec hload hrounds
  have hround (t : Nat) (ht : t < 80) : v (t + 1) = compressRound (roundConstant t) (w t) (v t) :=
    (Working.mk.injEq ..).mpr (hrounds t ht)
  have hlast : v 80 = afterRounds w (loadWorking hin) 80 := afterRounds_of_compressRounds hload hround
  rw [compressF_of_followsSchedule ⟨hblock, hrec⟩, ← hlast]
  rfl

end Sys2Proof.Machine
end

section
/-! PROOFS. The command COMPRESS (43_compression.md R103 to R105) and the chaining of blocks through it (20_memory.md R55): sixteen
SETWs on a clean engine make a complete block of their words, and COMPRESS leaves the engine clean again. -/

namespace Sys2Proof.Machine

/-! ### COMPRESS (R103) -/

/-- After a COMPRESS the hash state is valid and no byte of the block holds a value. -/
theorem execCompress_of_consumed (v : HashState) (s : State) :
    exec .compress (noResponse (clearBlock (writeHashState v s))) =
      .next (raise .blockIncomplete (noResponse (clearBlock (writeHashState v s)))) :=
  execCompress_of_incomplete (writeHashState_hval_get v s) fun hcomplete =>
    Bool.false_ne_true ((clearBlock_mbv_get (writeHashState v s) 0).symm.trans (hcomplete 0))

/-- Settles O35: one equation of COMPRESS for each of its three cases. -/
theorem compressFoldsTheBlockOrFaults : Obligations.CompressFoldsTheBlockOrFaults := by
  refine ⟨fun c => decode_eq_ok_iff_cmd c nofun nofun, fun s => ⟨fun hval hblock => ?_, fun ⟨i, hi⟩ => ?_,
    fun hval ⟨k, hk⟩ => ?_⟩⟩
  · obtain ⟨v, hv⟩ : ∃ v, compressF s.h (des s.mb) = v := ⟨_, rfl⟩
    exact ⟨_, execCompress_of_ready hv hval hblock, hv.symm, writeHashState_hval_get v s,
      clearBlock_mbv_get (writeHashState v s), rfl, rfl, ⟨rfl, rfl⟩, rfl, _, execCompress_of_consumed v s, raise_faultTaken _ _⟩
  · exact ⟨_, execCompress_of_noValue fun h => Bool.false_ne_true (hi.symm.trans (h i)), raise_faultTaken _ s⟩
  · exact ⟨_, execCompress_of_incomplete hval fun h => Bool.false_ne_true (hk.symm.trans (h k)), raise_faultTaken _ s⟩

/-- COMPRESS of a complete block leaves a clean state, whatever BPTR was (R27, R147). -/
theorem commandStep_compress_cleanState {s : State} (hf : s.fault = false) (hval : HashAllValid s) (hb : BlockComplete s) :
    ∃ t, commandStep (encode .compress) s = .next t ∧ CleanState t (compressF s.h (des s.mb)) ∧ t.rdata = none := by
  obtain ⟨v, hv⟩ : ∃ v, compressF s.h (des s.mb) = v := ⟨_, rfl⟩
  rw [hv, commandStep_encode (decodeOfEncodeIsTheInstruction _) hf, execCompress_of_ready hv hval hb]
  exact ⟨_, rfl, ⟨writeHashState_hval_get v s, rfl, clearBlock_mbv_get (writeHashState v s), rfl, hf⟩, rfl⟩

/-! ### Loading a block with SETW (R92; 45_host_pseudo.md R110) -/

/-- From `s` to `t` the block words with these indices were written; every other byte, BPTR, H and the fault state are as they
were. -/
structure WordsWritten (m : MessageBlock) (idxs : List (Fin 16)) (s t : State) : Prop where
  written : ∀ k : Fin 128, blockWordOf k ∈ idxs →
    t.mb[k.val] = serwByte m[(blockWordOf k).val] (k.val % 8) ∧ t.mbv[k.val] = true
  kept    : ∀ k : Fin 128, blockWordOf k ∉ idxs → t.mb[k.val] = s.mb[k.val] ∧ t.mbv[k.val] = s.mbv[k.val]
  bptr    : t.bptr = s.bptr
  hash    : SameHash s t
  faults  : SameFault s t

theorem wordsWritten_nil (m : MessageBlock) (s : State) : WordsWritten m [] s s where
  written _ hk := absurd hk List.not_mem_nil
  kept _ _ := ⟨rfl, rfl⟩
  bptr := rfl
  hash := ⟨rfl, rfl⟩
  faults := ⟨rfl, rfl⟩

theorem wordsWritten_cons {m : MessageBlock} {i : Fin 16} {idxs : List (Fin 16)} {s t : State}
    (h : WordsWritten m idxs (noResponse (writeBlockWord i m[i.val] s)) t) : WordsWritten m (i :: idxs) s t := by
  obtain ⟨hwritten, hkept, hbptr, hhash, hfaults⟩ := h
  have hmb (k : Fin 128) := writeBlockWord_mb_get i m[i.val] s k
  have hmbv (k : Fin 128) := writeBlockWord_mbv_get i m[i.val] s k
  refine ⟨fun k hk => ?_, fun k hk => ?_, hbptr, hhash, hfaults⟩
  · by_cases hlater : blockWordOf k ∈ idxs
    · exact hwritten k hlater
    · obtain ⟨hb, hv⟩ := hkept k hlater
      obtain rfl : blockWordOf k = i := (List.mem_cons.mp hk).resolve_right hlater
      exact ⟨hb.trans ((hmb k).trans (if_pos rfl)), hv.trans ((hmbv k).trans (if_pos rfl))⟩
  · obtain ⟨hne, hlater⟩ := List.ne_and_not_mem_of_not_mem_cons hk
    obtain ⟨hb, hv⟩ := hkept k hlater
    have hplace : k.val / 8 ≠ i.val := fun heq => hne (Fin.ext heq)
    exact ⟨hb.trans ((hmb k).trans (if_neg hplace)), hv.trans ((hmbv k).trans (if_neg hplace))⟩

theorem commandSteps_setws (m : MessageBlock) (idxs : List (Fin 16)) {s : State} (hf : s.fault = false) : ∃ r,
    commandSteps (idxs.map fun i => encode (.setw i m[i.val])) s = .next r ∧ WordsWritten m idxs s r.final ∧
      r.responses.all (fun x => x.isNone) = true := by
  induction idxs generalizing s with
  | nil => exact ⟨_, rfl, wordsWritten_nil m s, rfl⟩
  | cons i idxs ih =>
    obtain ⟨r, hr, hwritten, hresp⟩ := ih (s := noResponse (writeBlockWord i m[i.val] s)) hf
    exact ⟨_, commandSteps_cons (commandStep_encode (decodeOfEncodeIsTheInstruction _) hf) hr, wordsWritten_cons hwritten,
      hresp⟩

/-- LOADW leaves a complete block of its words, whatever the buffer held (R110). -/
theorem commandSteps_loadwCommands (m : MessageBlock) {s : State} (hf : s.fault = false) : ∃ r,
    commandSteps (loadwCommands m) s = .next r ∧ des r.final.mb = m ∧ BlockComplete r.final ∧ r.final.bptr = s.bptr ∧
      SameHash s r.final ∧ SameFault s r.final ∧ r.responses.all (fun x => x.isNone) = true := by
  obtain ⟨r, hr, ⟨hwritten, -, hbptr, hhash, hfaults⟩, hresp⟩ := commandSteps_setws m (List.finRange 16) hf
  have hall (k : Fin 128) := hwritten k (List.mem_finRange _)
  refine ⟨r, hr, Vector.ext fun i hi => ?_, fun k => (hall k).2, hbptr, hhash, hfaults, hresp⟩
  refine des_eq_of_serwByte (i := ⟨i, hi⟩) fun k hk => ?_
  obtain rfl : k.val / 8 = i := hk
  exact (hall k).1

/-! ### Blocks one after another (R104; 20_memory.md R55) -/

/-- Loading a block and compressing it takes a clean state to a clean state. -/
theorem commandSteps_loadBlock_compress (m : MessageBlock) {v : HashState} {s : State} (hs : CleanState s v) : ∃ r,
    commandSteps (loadwCommands m ++ [encode .compress]) s = .next r ∧ CleanState r.final (compressF v m) ∧
      r.responses.all (fun x => x.isNone) = true := by
  obtain ⟨hval, rfl, -, -, hf⟩ := hs
  obtain ⟨r, hr, hdes, hblock, -, ⟨hh, hhval⟩, ⟨hfault, -⟩, hresp⟩ := commandSteps_loadwCommands m hf
  obtain ⟨t, ht, hclean, hnone⟩ :=
    commandStep_compress_cleanState (hfault.trans hf) (fun i => hhval ▸ hval i) hblock
  rw [hh, hdes] at hclean
  refine ⟨_, commandSteps_append hr (commandSteps_cons ht rfl), hclean, ?_⟩
  rw [List.all_append, hresp, hnone]
  rfl

/-- Settles O36, by induction on the blocks: each starts from the clean state the one before it left. -/
theorem blocksChainThroughCompress : Obligations.BlocksChainThroughCompress := by
  intro blocks
  induction blocks with
  | nil => exact fun v s hs => ⟨_, rfl, hs, rfl⟩
  | cons m blocks ih =>
    intro v s hs
    obtain ⟨r, hr, hclean, hresp⟩ := commandSteps_loadBlock_compress m hs
    obtain ⟨q, hq, hfinal, hlater⟩ := ih (compressF v m) r.final hclean
    refine ⟨_, commandSteps_append hr hq, hfinal, ?_⟩
    rw [List.all_append, hresp, hlater]
    rfl

end Sys2Proof.Machine
end

section
/-! PROOFS. The command GETB (44_serializer.md R107), which reads one byte of the digest form of H. -/

namespace Sys2Proof.Machine

/-- Settles O26: the valid bit of the word that holds the byte decides alone, and a response leaves that word as it was. -/
theorem getbRespondsADigestByteOrFaults : Obligations.GetbRespondsADigestByteOrFaults := by
  refine ⟨fun idx c => decode_eq_ok_iff_cmd c nofun nofun, fun idx s => ⟨fun hvalid => ?_, fun hinvalid => ?_⟩⟩
  · exact ⟨_, execGetb_of_valid hvalid, respond_responded _ s, execGetb_of_valid (s := respond _ s) hvalid⟩
  · exact ⟨_, execGetb_of_invalid (Bool.eq_false_iff.mp hinvalid), raise_faultTaken _ s⟩

end Sys2Proof.Machine
end

section
/-! PROOFS. The HOST's macros BLOCK, LOADW, DIGEST and DIGESTW (45_host_pseudo.md R109 to R112) as sequences of commands on an
engine that is not faulted. -/

namespace Sys2Proof.Machine

/-! ### BLOCK and LOADW (R109, R110) -/

theorem toBlockBytes_get {bytes : List Byte} {k : Fin 128} {b : Byte} (h : bytes[k.val]? = some b) :
    (toBlockBytes bytes)[k.val] = b := by
  rw [toBlockBytes, Vector.getElem_ofFn, List.getD_eq_getElem?_getD, h, Option.getD_some]

theorem eq_toBlockBytes {bytes : List Byte} {mb : BlockBytes} (h : ∀ k : Fin 128, bytes[k.val]? = some mb[k.val]) :
    mb = toBlockBytes bytes :=
  Vector.ext fun k hk => (toBlockBytes_get (h ⟨k, hk⟩)).symm

/-- Settles O50: PUSHBs from BPTR = 0 write byte k at place k, and 128 of them write the whole buffer. -/
theorem blockMacroLoadsItsBytes : Obligations.BlockMacroLoadsItsBytes := by
  intro bytes s hf hptr hlen
  have hzero : s.bptr.toNat = 0 := congrArg BitVec.toNat hptr
  obtain ⟨r, hr, hbptr, hpushed, hkept, hhash, hfaults⟩ :=
    commandSteps_blockCommands hf (by rwa [hzero, Nat.zero_add])
  simp only [hzero, Nat.zero_add, Nat.sub_zero, Nat.zero_le, true_imp_iff, Nat.not_lt_zero, false_or] at hbptr hpushed hkept
  exact ⟨r, hr, hpushed, hkept, hbptr, hhash, hfaults,
    fun hfull => congrArg des (eq_toBlockBytes fun k => (hpushed k (by omega)).1)⟩

/-- Settles O51: the sixteen SETWs of LOADW write every block word. -/
theorem loadwMacroLoadsItsWords : Obligations.LoadwMacroLoadsItsWords := by
  intro words s hf
  obtain ⟨r, hr, hdes, hblock, hbptr, hhash, hfaults, -⟩ := commandSteps_loadwCommands words hf
  exact ⟨r, hr, hdes, hblock, hbptr, hhash, hfaults⟩

/-! ### DIGEST and DIGESTW (R111, R112) -/

/-- From `s` to `t` nothing was written but the response. -/
structure OnlyRead (s t : State) : Prop where
  hash   : SameHash s t
  block  : SameBlock s t
  faults : SameFault s t

theorem onlyRead_of_respond {v : Word} {s t : State} (h : OnlyRead (respond v s) t) : OnlyRead s t :=
  ⟨h.hash, h.block, h.faults⟩

/-- Reads of which each responds its value while H is as it was respond all their values, in order. -/
theorem commandSteps_reads {α : Type} {read : α → Instr} {value : α → Word} (places : List α) {s : State}
    (hf : s.fault = false) (hread : ∀ a u, SameHash s u → exec (read a) u = .next (respond (value a) u)) : ∃ r,
    commandSteps (places.map fun a => encode (read a)) s = .next r ∧
      r.responses = places.map (fun a => some (value a)) ∧ OnlyRead s r.final := by
  induction places generalizing s with
  | nil => exact ⟨_, rfl, rfl, ⟨rfl, rfl⟩, ⟨rfl, rfl, rfl⟩, ⟨rfl, rfl⟩⟩
  | cons a places ih =>
    have hstep := (commandStep_encode (decodeOfEncodeIsTheInstruction (read a)) hf).trans (hread a s ⟨rfl, rfl⟩)
    obtain ⟨r, hr, hresp, hsame⟩ := ih (s := respond (value a) s) hf hread
    exact ⟨_, commandSteps_cons hstep hr, congrArg (some (value a) :: ·) hresp, onlyRead_of_respond hsame⟩

theorem toList_ser (h : HashState) :
    (ser h).toList = (List.finRange 64).map fun k => serwByte h[(digestWordIndex k).val] (digestByteIndex k).val := by
  rw [ser, Vector.toList_ofFn, List.ofFn_eq_map]
  rfl

theorem toList_hashState (h : HashState) : h.toList = (List.finRange 8).map fun i => h[i.val] := by
  rw [← List.ofFn_eq_map, ← Vector.toList_ofFn, Vector.ofFn_getElem]

/-- Settles O52: no read changes H, so each responds from the H there was before the first. -/
theorem digestMacrosReadTheHashState : Obligations.DigestMacrosReadTheHashState := by
  intro s hf hval
  constructor
  · obtain ⟨r, hr, hresp, hhash, hblock, hfaults⟩ :=
      commandSteps_reads (read := .getb) (List.finRange 64) hf fun k u hu => by
        have hvalid : u.hval[(digestWordIndex k).val] = true := hu.2 ▸ hval (digestWordIndex k)
        rw [execGetb_of_valid hvalid, hu.1]
    refine ⟨r, hr, ?_, hhash, hblock, hfaults⟩
    rw [hresp, toList_ser, List.map_map]
    rfl
  · obtain ⟨r, hr, hresp, hhash, hblock, hfaults⟩ :=
      commandSteps_reads (read := .geth) (List.finRange 8) hf fun i u hu => by
        have hvalid : u.hval[i.val] = true := hu.2 ▸ hval i
        rw [execGeth_of_valid hvalid, hu.1]
    refine ⟨r, hr, ?_, hhash, hblock, hfaults⟩
    rw [hresp, toList_hashState, List.map_map]
    rfl

end Sys2Proof.Machine
end

section
/-! PROOFS. The blocks of a padded message (45_host_pseudo.md R113 to R123), with no engine in them: the bytes of the full chunks, of
the FINAL-PAD buffer and of the last block, and the number of blocks. -/

namespace Sys2Proof.Machine

/-! ### Full chunks and the FINAL-PAD buffer, byte by byte (R114, R115) -/

theorem fullChunk_length {src : List Byte} {j : Nat} (hj : j < fullBlockCount src) : (fullChunk src j).length = 128 := by
  rw [fullBlockCount] at hj
  rw [fullChunk, List.length_take, List.length_drop]
  omega

theorem fullChunk_get (src : List Byte) (j : Nat) {k : Nat} (hk : k < 128) :
    (fullChunk src j)[k]? = src[128 * j + k]? := by
  rw [fullChunk, List.getElem?_take_of_lt hk, List.getElem?_drop]

/-- Byte k of the block is byte k mod 8 of its word k div 8 (R44). -/
theorem serw_des_get (mb : BlockBytes) (k : Fin 128) : (serw (des mb)[k.val / 8])[k.val % 8] = mb[k.val] := by
  have hbyte := congrArg (·[k.val]) (desAndSerwAreInverse.2 mb)
  simpa only [Vector.getElem_ofFn] using hbyte

/-- The bytes of a full block are the message's (R114). -/
theorem messageBlocks_get_of_full (maxR : Nat) {src : List Byte} {j : Nat} (hj : j < fullBlockCount src) : ∃ m,
    (messageBlocks maxR src)[j]? = some m ∧
      ∀ k : Fin 128, some (serw m[k.val / 8])[k.val % 8] = src[128 * j + k.val]? := by
  refine ⟨des (toBlockBytes (fullChunk src j)), ?_, fun k => ?_⟩
  · rw [messageBlocks, List.getElem?_append_left (by rwa [List.length_map, List.length_range]), List.getElem?_map,
      List.getElem?_range hj, Option.map_some]
  · have hk : k.val < (fullChunk src j).length := k.isLt.trans_eq (fullChunk_length hj).symm
    rw [← fullChunk_get src j k.isLt, serw_des_get, toBlockBytes_get (List.getElem?_eq_getElem hk),
      List.getElem?_eq_getElem hk]

theorem length_drop_fullBlocks (src : List Byte) :
    (src.drop (128 * fullBlockCount src)).length = remainderLength src := by
  rw [List.length_drop, fullBlockCount, remainderLength]
  omega

theorem remainderLength_lt (src : List Byte) : remainderLength src < 128 := Nat.mod_lt _ (by decide)

theorem finalBuffer_length (src : List Byte) : (finalBuffer src).length = 128 := by
  have hlt := remainderLength_lt src
  rw [finalBuffer, List.length_append, List.length_append, length_drop_fullBlocks, List.length_singleton,
    List.length_replicate]
  omega

section
variable {src : List Byte} {k : Nat}

theorem finalBuffer_get_of_lt (hk : k < remainderLength src) :
    (finalBuffer src)[k]? = src[128 * fullBlockCount src + k]? := by
  rw [finalBuffer, List.append_assoc, List.getElem?_append_left (by rwa [length_drop_fullBlocks]), List.getElem?_drop]

theorem finalBuffer_get_remainderLength : (finalBuffer src)[remainderLength src]? = some 0x80 := by
  rw [finalBuffer, List.append_assoc, List.getElem?_append_right (length_drop_fullBlocks src).le, length_drop_fullBlocks,
    Nat.sub_self]
  rfl

theorem finalBuffer_get_of_gt (hk : remainderLength src < k) (hk' : k < 128) : (finalBuffer src)[k]? = some 0 := by
  have hfront : (src.drop (128 * fullBlockCount src) ++ [0x80]).length = remainderLength src + 1 := by
    rw [List.length_append, length_drop_fullBlocks, List.length_singleton]
  rw [finalBuffer, List.getElem?_append_right (by omega), List.getElem?_replicate_of_lt (by omega)]

end

theorem lengthWord_toNat (src : List Byte) : (lengthWord src).toNat = 8 * src.length % 2 ^ 64 :=
  BitVec.toNat_ofNat _ _

/-! ### The last block (R116, R117, R121) -/

theorem serwByte_zero (j : Nat) : serwByte 0 j = 0 := BitVec.extractLsb'_zero

section
variable {bytes : List Byte} (hbytes : bytes.length = 120) (len : Word)
include hbytes

/-- The bytes of the last block: the 120 bytes given, and from byte 120 on the length word's. -/
theorem getElem?_append_serw (k : Fin 128) :
    (bytes ++ (serw len).toList)[k.val]? = if k.val / 8 = 15 then some (serwByte len (k.val % 8)) else bytes[k.val]? := by
  split_ifs with hk
  · have hplace : k.val - 120 = k.val % 8 := by omega
    rw [List.getElem?_append_right (by omega), hbytes, hplace, Vector.getElem?_toList,
      Vector.getElem?_eq_getElem (Nat.mod_lt _ (by decide)), serw_get]
  · exact List.getElem?_append_left (by omega)

theorem lengthBlock_get_fifteen : (lengthBlock bytes len)[15] = len :=
  des_eq_of_serwByte (i := 15) fun k hk => toBlockBytes_get ((getElem?_append_serw hbytes len k).trans (if_pos hk))

/-- Word 14 is 0 where its eight bytes are. -/
theorem lengthBlock_get_fourteen (hzero : ∀ k, 112 ≤ k → k < 120 → bytes[k]? = some 0) :
    (lengthBlock bytes len)[14] = 0 := by
  refine des_eq_of_serwByte (i := 14) fun k hk => toBlockBytes_get ?_
  obtain hk : k.val / 8 = 14 := hk
  rw [getElem?_append_serw hbytes, if_neg (by omega), hzero k.val (by omega) (by omega), serwByte_zero]

end

section
variable {maxR : Nat} {src : List Byte}

theorem finalBlocks_of_le (h : remainderLength src ≤ maxR) :
    finalBlocks maxR src = [lengthBlock ((finalBuffer src).take 120) (lengthWord src)] :=
  if_pos h

theorem finalBlocks_of_gt (h : ¬ remainderLength src ≤ maxR) :
    finalBlocks maxR src =
      [des (toBlockBytes (finalBuffer src)), lengthBlock (List.replicate 120 0) (lengthWord src)] :=
  if_neg h

theorem length_take_finalBuffer (src : List Byte) : ((finalBuffer src).take 120).length = 120 := by
  rw [List.length_take, finalBuffer_length]
  rfl

/-- With either threshold of R12 the last block is 120 bytes, of which the last eight are 0, and the length word. -/
theorem getLast?_messageBlocks (hmax : maxR ≤ 111) : ∃ bytes : List Byte, bytes.length = 120 ∧
    (∀ k, 112 ≤ k → k < 120 → bytes[k]? = some 0) ∧
    (messageBlocks maxR src).getLast? = some (lengthBlock bytes (lengthWord src)) := by
  by_cases hle : remainderLength src ≤ maxR
  · refine ⟨_, length_take_finalBuffer src, fun k hk hk' => ?_, ?_⟩
    · rw [List.getElem?_take_of_lt hk', finalBuffer_get_of_gt (by omega) (by omega)]
    · rw [messageBlocks, finalBlocks_of_le hle, List.getLast?_append]
      rfl
  · refine ⟨_, List.length_replicate, fun k _ hk' => List.getElem?_replicate_of_lt hk', ?_⟩
    rw [messageBlocks, finalBlocks_of_gt hle, List.getLast?_append]
    rfl

end

theorem padOneBlockMaxR_le {p : Params} (hp : p.wf = true) : p.padOneBlockMaxR ≤ 111 := by
  simp only [Params.wf, Bool.and_eq_true, Bool.or_eq_true, beq_iff_eq] at hp
  omega

/-- Settles O56: the last block is 120 bytes ending in eight zeros, and the length word. -/
theorem lengthFieldLawHolds : Obligations.LengthFieldLawHolds := by
  intro p src hp
  obtain ⟨bytes, hbytes, hzero, hlast⟩ := getLast?_messageBlocks (src := src) (padOneBlockMaxR_le hp)
  refine ⟨_, hlast, ?_, lengthBlock_get_fourteen hbytes _ hzero⟩
  rw [lengthBlock_get_fifteen hbytes, lengthWord_toNat]

/-- Settles O58: no byte remains, so the one block holds 0x80, zeros and the length 0. -/
theorem emptyMessageIsOnePaddedBlock : Obligations.EmptyMessageIsOnePaddedBlock := by
  intro maxR
  have hnone : remainderLength [] ≤ maxR := Nat.zero_le maxR
  rw [messageBlocks, finalBlocks_of_le hnone]
  decide

/-! ### The number of blocks and of COMPRESS commands (R120, R123) -/

theorem encode_inj {i j : Instr} (h : encode i = encode j) : i = j := by
  have hi := decodeOfEncodeIsTheInstruction i
  rw [h, decodeOfEncodeIsTheInstruction j] at hi
  exact (Except.ok.inj hi).symm

/-- The number of COMPRESS commands in a sequence. -/
def compressCount (cs : List Command) : Nat := cs.countP fun c => c == encode .compress

theorem compressCount_append (cs ds : List Command) : compressCount (cs ++ ds) = compressCount cs + compressCount ds :=
  List.countP_append

/-- Different instructions have different words, so COMPRESS is counted where the instruction is COMPRESS. -/
theorem compressCount_map_encode (is : List Instr) : compressCount (is.map encode) = is.count .compress := by
  rw [compressCount, List.countP_map, List.count]
  refine List.countP_congr fun i _ => ?_
  simp only [Function.comp_apply, beq_iff_eq]
  exact ⟨encode_inj, congrArg encode⟩

theorem compressCount_compress : compressCount [encode .compress] = 1 := compressCount_map_encode [.compress]

theorem compressCount_blockCommands (bytes : List Byte) : compressCount (blockCommands bytes) = 0 := by
  have hpushb : blockCommands bytes = (bytes.map Instr.pushb).map encode := by
    rw [List.map_map]
    rfl
  rw [hpushb, compressCount_map_encode, List.count_eq_zero, List.mem_map]
  rintro ⟨b, -, hb⟩
  cases hb

theorem compressCount_lengthBlockCommands (bytes : List Byte) (len : Word) :
    compressCount (lengthBlockCommands bytes len) = 1 := by
  rw [lengthBlockCommands, compressCount_append, compressCount_blockCommands, Nat.zero_add]
  exact compressCount_map_encode [.setw 15 len, .compress]

theorem compressCount_flatMap_fullBlockCommands (src : List Byte) (js : List Nat) :
    compressCount (js.flatMap (fullBlockCommands src)) = js.length := by
  induction js with
  | nil => rfl
  | cons j js ih =>
    rw [List.flatMap_cons, compressCount_append, ih, fullBlockCommands, compressCount_append, compressCount_blockCommands,
      compressCount_compress, List.length_cons]
    omega

theorem compressCount_finalCommands (maxR : Nat) (src : List Byte) :
    compressCount (finalCommands maxR src) = if remainderLength src ≤ maxR then 1 else 2 := by
  rw [finalCommands]
  split_ifs
  · exact compressCount_lengthBlockCommands _ _
  · rw [compressCount_append, compressCount_append, compressCount_blockCommands, compressCount_compress,
      compressCount_lengthBlockCommands]

theorem length_messageBlocks (maxR : Nat) (src : List Byte) :
    (messageBlocks maxR src).length = src.length / 128 + if src.length % 128 ≤ maxR then 1 else 2 := by
  rw [messageBlocks, List.length_append, List.length_map, List.length_range, finalBlocks, fullBlockCount, remainderLength]
  split_ifs <;> rfl

/-- Settles O55: INIT, PUSHB and SETW are no COMPRESS, and each block, full or final, has one. -/
theorem blockCountLawHolds : Obligations.BlockCountLawHolds := by
  refine fun maxR src => ⟨?_, length_messageBlocks maxR src⟩
  have hinit : compressCount [encode .init] = 0 := compressCount_map_encode [.init]
  have hcount : compressCount (hashExpansion maxR src) =
      fullBlockCount src + if remainderLength src ≤ maxR then 1 else 2 := by
    rw [hashExpansion, compressCount_append, compressCount_append, hinit,
      compressCount_flatMap_fullBlockCommands, compressCount_finalCommands, List.length_range, Nat.zero_add]
  exact hcount

/-- Settles O57: only a remainder of 111 is above the one threshold and not above the other. -/
theorem thresholdsDifferOnlyAt111 : Obligations.ThresholdsDifferOnlyAt111 := by
  refine ⟨fun src hne => ?_, fun src h111 => ?_⟩
  · have hsame : remainderLength src ≤ 110 ↔ remainderLength src ≤ 111 := by
      rw [remainderLength]
      omega
    simp only [hashExpansion, finalCommands, hsame]
  · rw [length_messageBlocks, length_messageBlocks, h111]
    rfl

end Sys2Proof.Machine
end

section
/-! PROOFS. When HASH is refused (45_host_pseudo.md R113, R118, R124; 10_state.md R21). -/

namespace Sys2Proof.Machine

section
variable {p : Params} {host len : Nat} {source : Option (List Byte)} {e : Engine} {s : State}
  (hs : drain e.state = .next s)
include hs

theorem launchHash_of_faulted (hf : s.fault = true) :
    launchHash p host source len e = .refused .engineFaulted := by
  simp only [launchHash, hs, hf, if_true]

theorem launchHash_of_refused {f : Refusal} (hf : s.fault = false)
    (h : hashCommands p.padOneBlockMaxR source len = .refused f) : launchHash p host source len e = .refused f := by
  simp only [launchHash, hs, hf, h, Bool.false_eq_true, if_false]

theorem launchHash_of_next {cs : List Command} (hf : s.fault = false)
    (h : hashCommands p.padOneBlockMaxR source len = .next cs) :
    launchHash p host source len e = launch (issuedBy host cs) e := by
  simp only [launchHash, hs, hf, h, Bool.false_eq_true, if_false]

end

section
variable {maxR len : Nat} {src : List Byte}

theorem hashCommands_of_lengthMismatch (h : src.length ≠ len) :
    hashCommands maxR (some src) len = .refused .lengthMismatch :=
  if_neg h

theorem hashCommands_of_tooLong (h : src.length = len) (hlong : 2 ^ 64 ≤ 8 * len) :
    hashCommands maxR (some src) len = .refused .messageTooLong :=
  (if_pos h).trans (if_neg (Nat.not_lt.mpr hlong))

theorem hashCommands_of_fits (h : src.length = len) (hfits : 8 * len < 2 ^ 64) :
    hashCommands maxR (some src) len = .next (hashExpansion maxR src) :=
  (if_pos h).trans (if_pos hfits)

end

/-- The first command of HASH, INIT, is one of the HOST's. -/
theorem launch_hashExpansion_of_other {maxR host : Nat} {src : List Byte} {e : Engine} (h : host ≠ e.host) :
    launch (issuedBy host (hashExpansion maxR src)) e = .refused .twoHosts :=
  launch_of_other ⟨⟨host, encode .init⟩, List.mem_cons_self, h⟩

/-- Settles O54 (logs 17 and 9): one equation of HASH for each precondition, and the launch's for the HOST. -/
theorem hashOutsideItsPreconditionsIsRefused : Obligations.HashOutsideItsPreconditionsIsRefused := by
  intro p host src len e s hs
  refine ⟨fun hf source => launchHash_of_faulted hs hf, fun hf => launchHash_of_refused hs hf rfl,
    fun hf hlen => launchHash_of_refused hs hf (hashCommands_of_lengthMismatch hlen),
    fun hf hlen hlong => launchHash_of_refused hs hf (hashCommands_of_tooLong hlen hlong),
    fun hf hlen hfits hhost => ?_⟩
  rw [launchHash_of_next hs hf (hashCommands_of_fits hlen hfits), launch_hashExpansion_of_other hhost]

end Sys2Proof.Machine
end

section
/-! PROOFS. What HASH computes on an engine (45_host_pseudo.md R113 to R122; 43_compression.md R104): commands that load a block and
compress it take a ready engine to a clean one, and HASH is INIT and such commands for every block of the message. -/

namespace Sys2Proof.Machine

/-! ### Loading one block and compressing it (R114, R116, R117) -/

/-- An engine whose next block can be loaded from its first byte on: the hash state is V, BPTR is 0, no fault. Unlike in a clean
state, block bytes may hold values. -/
structure ReadyState (s : State) (v : HashState) : Prop where
  hval  : HashAllValid s
  h     : s.h = v
  bptr  : s.bptr = 0
  fault : s.fault = false

theorem CleanState.ready {s : State} {v : HashState} (hs : CleanState s v) : ReadyState s v :=
  ⟨hs.hval, hs.h, hs.bptr, hs.fault⟩

/-- From BPTR = 0 on an engine that is not faulted, the commands make a complete block of `m` and leave H and the fault state. -/
def LoadsBlock (cs : List Command) (m : MessageBlock) : Prop :=
  ∀ s : State, s.fault = false → s.bptr = 0 → ∃ r, commandSteps cs s = .next r ∧
    BlockComplete r.final ∧ des r.final.mb = m ∧ SameHash s r.final ∧ SameFault s r.final

theorem blockCommands_loadsBlock {bytes : List Byte} (hbytes : bytes.length = 128) :
    LoadsBlock (blockCommands bytes) (des (toBlockBytes bytes)) := by
  intro s hf hptr
  obtain ⟨r, hr, hpushed, -, -, hhash, hfaults, hdes⟩ := blockMacroLoadsItsBytes bytes s hf hptr hbytes.le
  exact ⟨r, hr, fun k => (hpushed k (by omega)).2, hdes hbytes, hhash, hfaults⟩

/-- 120 bytes pushed and the length set as word 15 are the 128 bytes of the last block. -/
theorem blockCommands_setw_loadsBlock {bytes : List Byte} (hbytes : bytes.length = 120) (len : Word) :
    LoadsBlock (blockCommands bytes ++ [encode (.setw 15 len)]) (lengthBlock bytes len) := by
  intro s hf hptr
  obtain ⟨r, hr, hpushed, -, -, hhash, hfaults, -⟩ := blockMacroLoadsItsBytes bytes s hf hptr (by omega)
  have hsetw : commandStep (encode (.setw 15 len)) r.final = .next (noResponse (writeBlockWord 15 len r.final)) :=
    commandStep_encode (decodeOfEncodeIsTheInstruction _) (hfaults.1.trans hf)
  have hmb (k : Fin 128) : (writeBlockWord 15 len r.final).mb[k.val] =
      if k.val / 8 = 15 then serwByte len (k.val % 8) else r.final.mb[k.val] := writeBlockWord_mb_get 15 len r.final k
  have hmbv (k : Fin 128) : (writeBlockWord 15 len r.final).mbv[k.val] =
      if k.val / 8 = 15 then true else r.final.mbv[k.val] := writeBlockWord_mbv_get 15 len r.final k
  refine ⟨_, commandSteps_append hr (commandSteps_cons hsetw rfl), fun k => (hmbv k).trans ?_,
    congrArg des (eq_toBlockBytes fun k => ?_), hhash, hfaults⟩
  · split_ifs with hk
    · rfl
    · exact (hpushed k (by omega)).2
  · refine (getElem?_append_serw hbytes len k).trans (.trans ?_ (congrArg some (hmb k).symm))
    split_ifs with hk
    · rfl
    · exact (hpushed k (by omega)).1

/-- On a ready engine the commands compress these blocks one after another, and leave a clean state. -/
def FoldsBlocks (cs : List Command) (blocks : List MessageBlock) : Prop :=
  ∀ (v : HashState) (s : State), ReadyState s v → ∃ r,
    commandSteps cs s = .next r ∧ CleanState r.final (blocks.foldl compressF v)

theorem LoadsBlock.foldsBlocks {cs : List Command} {m : MessageBlock} (h : LoadsBlock cs m) :
    FoldsBlocks (cs ++ [encode .compress]) [m] := by
  rintro v s ⟨hval, rfl, hptr, hf⟩
  obtain ⟨r, hr, hblock, hdes, ⟨hh, hhval⟩, ⟨hfault, -⟩⟩ := h s hf hptr
  obtain ⟨t, ht, hclean, -⟩ := commandStep_compress_cleanState (hfault.trans hf) (fun i => hhval ▸ hval i) hblock
  rw [hh, hdes] at hclean
  exact ⟨_, commandSteps_append hr (commandSteps_cons ht rfl), hclean⟩

theorem FoldsBlocks.append {cs ds : List Command} {ms ns : List MessageBlock} (hc : FoldsBlocks cs ms)
    (hd : FoldsBlocks ds ns) : FoldsBlocks (cs ++ ds) (ms ++ ns) := by
  intro v s hs
  obtain ⟨r, hr, hclean⟩ := hc v s hs
  obtain ⟨q, hq, hfinal⟩ := hd _ r.final hclean.ready
  rw [List.foldl_append]
  exact ⟨_, commandSteps_append hr hq, hfinal⟩

/-! ### The whole expansion (R113, R122) -/

theorem fullBlockCommands_foldsBlocks {src : List Byte} {j : Nat} (hj : j < fullBlockCount src) :
    FoldsBlocks (fullBlockCommands src j) [des (toBlockBytes (fullChunk src j))] :=
  (blockCommands_loadsBlock (fullChunk_length hj)).foldsBlocks

theorem lengthBlockCommands_foldsBlocks {bytes : List Byte} (hbytes : bytes.length = 120) (len : Word) :
    FoldsBlocks (lengthBlockCommands bytes len) [lengthBlock bytes len] := by
  have hloads := (blockCommands_setw_loadsBlock hbytes len).foldsBlocks
  rwa [List.append_assoc] at hloads

theorem finalCommands_foldsBlocks (maxR : Nat) (src : List Byte) :
    FoldsBlocks (finalCommands maxR src) (finalBlocks maxR src) := by
  rw [finalCommands, finalBlocks]
  split_ifs
  · exact lengthBlockCommands_foldsBlocks (length_take_finalBuffer src) _
  · exact (blockCommands_loadsBlock (finalBuffer_length src)).foldsBlocks.append
      (lengthBlockCommands_foldsBlocks List.length_replicate _)

/-- Full blocks in front of commands that fold blocks. -/
theorem FoldsBlocks.fullBlocks_append {src : List Byte} {ds : List Command} {ns : List MessageBlock}
    (hd : FoldsBlocks ds ns) (js : List Nat) (hjs : ∀ j ∈ js, j < fullBlockCount src) :
    FoldsBlocks (js.flatMap (fullBlockCommands src) ++ ds)
      (js.map (fun j => des (toBlockBytes (fullChunk src j))) ++ ns) := by
  induction js with
  | nil => exact hd
  | cons j js ih =>
    obtain ⟨hj, hlater⟩ := List.forall_mem_cons.mp hjs
    rw [List.flatMap_cons, List.append_assoc]
    exact (fullBlockCommands_foldsBlocks hj).append (ih hlater)

/-- INIT makes any engine that is not faulted and has BPTR = 0 ready with IV, whatever it held (R122). -/
theorem commandStep_init_ready {s : State} (hf : s.fault = false) (hptr : s.bptr = 0) :
    ∃ t, commandStep (encode .init) s = .next t ∧ ReadyState t iv :=
  ⟨_, commandStep_encode (decodeOfEncodeIsTheInstruction _) hf, writeHashState_hval_get iv s, rfl, hptr, hf⟩

theorem commandSteps_hashExpansion (maxR : Nat) (src : List Byte) {s : State} (hf : s.fault = false) (hptr : s.bptr = 0) :
    ∃ r, commandSteps (hashExpansion maxR src) s = .next r ∧ CleanState r.final (messageDigest maxR src) := by
  obtain ⟨t, ht, hready⟩ := commandStep_init_ready hf hptr
  obtain ⟨r, hr, hclean⟩ := (finalCommands_foldsBlocks maxR src).fullBlocks_append
    (List.range (fullBlockCount src)) (fun j hj => List.mem_range.mp hj) iv t hready
  exact ⟨_, commandSteps_cons ht hr, hclean⟩

/-- A launch by the engine's own HOST succeeds where its commands, after all that is pending, end without a fault (R133). -/
theorem launch_issuedBy_own {cs : List Command} {e : Engine} {s : State} {r : LaunchResult} (hs : drain e.state = .next s)
    (hr : commandSteps cs s = .next r) (hf : r.final.fault = false) : launch (issuedBy e.host cs) e = .next r := by
  have hown : ∀ i ∈ issuedBy e.host cs, i.host = e.host := fun i hi => by
    obtain ⟨c, -, rfl⟩ := List.mem_map.mp hi
    rfl
  have hcommands : (issuedBy e.host cs).map Issued.command = cs := by
    rw [issuedBy, List.map_map]
    exact List.map_id cs
  rw [launch_of_own hown, hcommands, issueAndPerform_of_drain hs, hr, settleLaunch, if_neg (Bool.eq_false_iff.mp hf)]

/-- Settles O53: the pieces of the blocks byte by byte, then INIT and the blocks folded one after another. -/
theorem hashComputesTheMessageDigest : Obligations.HashComputesTheMessageDigest := by
  intro p src
  refine ⟨fun j hj => ⟨fullChunk_length hj, fun k hk => fullChunk_get src j hk, messageBlocks_get_of_full _ hj⟩,
    ⟨finalBuffer_length src, fun k hk => finalBuffer_get_of_lt hk, finalBuffer_get_remainderLength,
      fun k hk hk' => finalBuffer_get_of_gt hk hk'⟩,
    fun hfits => (lengthWord_toNat src).trans (Nat.mod_eq_of_lt hfits), fun e s hs hf hptr hfits => ?_⟩
  obtain ⟨r, hr, hclean⟩ := commandSteps_hashExpansion p.padOneBlockMaxR src hf hptr
  refine ⟨r, ?_, hclean⟩
  rw [launchHash_of_next hs hf (hashCommands_of_fits rfl hfits), launch_issuedBy_own hs hr hclean.fault]

end Sys2Proof.Machine
end

section
/-! PROOFS. The fault entry (60_exceptions.md R126 to R132): the rules under which a command faults an engine that is not faulted,
each with its cause, are all the faults there are, and each is the fault entry with that cause. -/

namespace Sys2Proof.Machine

/-- Performed on an unfaulted `s`, the command raises this cause, by one of the rules R127 to R130; of the two rules of COMPRESS
the one on the hash state comes first (R131). -/
inductive Raises : Command → State → FaultCause → Prop
  | illegal {c s} {e : Illegal} (hd : decode c = .error e) : Raises c s .illegalCmd
  | geth {c s} {idx : Fin 8} (hd : decode c = .ok (.geth idx)) (hv : s.hval[idx.val] = false) : Raises c s .hNoValue
  | getb {c s} {idx : Fin 64} (hd : decode c = .ok (.getb idx)) (hv : s.hval[(digestWordIndex idx).val] = false) :
      Raises c s .hNoValue
  | compress {c s} {i : Fin 8} (hd : decode c = .ok .compress) (hv : s.hval[i.val] = false) : Raises c s .hNoValue
  | compressIncomplete {c s} {k : Fin 128} (hd : decode c = .ok .compress) (hv : HashAllValid s)
      (hk : s.mbv[k.val] = false) : Raises c s .blockIncomplete
  | pushb {c s} {b : Byte} (hd : decode c = .ok (.pushb b)) (hfull : s.bptr = 128) : Raises c s .blockOverflow

theorem Raises.cause_ne_none {c : Command} {s : State} {cause : FaultCause} (h : Raises c s cause) : cause ≠ .none := by
  cases h <;> decide

/-! ### Each cause with the rules that raise it -/

section
variable {c : Command} {s : State}

theorem raises_illegalCmd_iff : Raises c s .illegalCmd ↔ ∃ e, decode c = .error e :=
  ⟨fun | .illegal hd => ⟨_, hd⟩, fun ⟨_, hd⟩ => .illegal hd⟩

theorem raises_hNoValue_iff : Raises c s .hNoValue ↔
    (∃ idx, decode c = .ok (.geth idx) ∧ s.hval[idx.val] = false) ∨
    (∃ idx, decode c = .ok (.getb idx) ∧ s.hval[(digestWordIndex idx).val] = false) ∨
    (decode c = .ok .compress ∧ ∃ i : Fin 8, s.hval[i.val] = false) := by
  constructor
  · rintro (_ | ⟨hd, hv⟩ | ⟨hd, hv⟩ | ⟨hd, hv⟩)
    · exact .inl ⟨_, hd, hv⟩
    · exact .inr (.inl ⟨_, hd, hv⟩)
    · exact .inr (.inr ⟨hd, _, hv⟩)
  · rintro (⟨_, hd, hv⟩ | ⟨_, hd, hv⟩ | ⟨hd, _, hv⟩)
    · exact .geth hd hv
    · exact .getb hd hv
    · exact .compress hd hv

theorem raises_blockIncomplete_iff : Raises c s .blockIncomplete ↔
    decode c = .ok .compress ∧ HashAllValid s ∧ ∃ k : Fin 128, s.mbv[k.val] = false :=
  ⟨fun | .compressIncomplete hd hv hk => ⟨hd, hv, _, hk⟩, fun ⟨hd, hv, _, hk⟩ => .compressIncomplete hd hv hk⟩

theorem raises_blockOverflow_iff : Raises c s .blockOverflow ↔ (∃ b, decode c = .ok (.pushb b)) ∧ s.bptr = 128 :=
  ⟨fun | .pushb hd hfull => ⟨⟨_, hd⟩, hfull⟩, fun ⟨⟨_, hd⟩, hfull⟩ => .pushb hd hfull⟩

end

/-! ### The command step faults by these rules only -/

/-- Every instruction is made to fault by a rule, or leaves FAULT. -/
theorem exists_raises_or_fault_kept {c : Command} {i : Instr} {s : State} (hd : decode c = .ok i) :
    (∃ cause, Raises c s cause) ∨ ∃ t, exec i s = .next t ∧ t.fault = s.fault := by
  cases i with
  | init | seth | setw | gets | clrb => exact .inr ⟨_, rfl, rfl⟩
  | geth idx =>
    cases hv : s.hval[idx.val] with
    | false => exact .inl ⟨_, .geth hd hv⟩
    | true => exact .inr ⟨_, execGeth_of_valid hv, rfl⟩
  | getb idx =>
    cases hv : s.hval[(digestWordIndex idx).val] with
    | false => exact .inl ⟨_, .getb hd hv⟩
    | true => exact .inr ⟨_, execGetb_of_valid hv, rfl⟩
  | pushb b =>
    by_cases hfull : s.bptr = 128
    · exact .inl ⟨_, .pushb hd hfull⟩
    · exact .inr ⟨_, execPushb_of_room hfull, rfl⟩
  | compress =>
    by_cases hv : HashAllValid s
    · by_cases hb : BlockComplete s
      · obtain ⟨v, hfold⟩ : ∃ v, compressF s.h (des s.mb) = v := ⟨_, rfl⟩
        exact .inr ⟨_, execCompress_of_ready hfold hv hb, rfl⟩
      · obtain ⟨k, hk⟩ := not_forall.mp hb
        exact .inl ⟨_, .compressIncomplete hd hv (Bool.eq_false_iff.mpr hk)⟩
    · obtain ⟨i, hi⟩ := not_forall.mp hv
      exact .inl ⟨_, .compress hd (Bool.eq_false_iff.mpr hi)⟩

section
variable {c : Command} {s t : State} {cause : FaultCause} (hf : s.fault = false)
include hf

theorem commandStep_of_raises (h : Raises c s cause) : commandStep c s = .next (raise cause s) := by
  cases h with
  | illegal hd => exact commandStep_of_illegal hf hd
  | geth hd hv => exact (commandStep_of_decoded hf hd).trans (execGeth_of_invalid (Bool.eq_false_iff.mp hv))
  | getb hd hv => exact (commandStep_of_decoded hf hd).trans (execGetb_of_invalid (Bool.eq_false_iff.mp hv))
  | compress hd hv =>
    exact (commandStep_of_decoded hf hd).trans (execCompress_of_noValue fun h => Bool.eq_false_iff.mp hv (h _))
  | compressIncomplete hd hv hk =>
    exact (commandStep_of_decoded hf hd).trans (execCompress_of_incomplete hv fun h => Bool.eq_false_iff.mp hk (h _))
  | pushb hd hfull => exact (commandStep_of_decoded hf hd).trans (execPushb_of_full hfull)

/-- A command that ends with FAULT = 1 faulted by a rule, for one that no rule makes fault leaves FAULT = 0. -/
theorem exists_raises_of_fault (h : commandStep c s = .next t) (ht : t.fault = true) : ∃ cause, Raises c s cause := by
  cases hd : decode c with
  | error e => exact ⟨_, .illegal hd⟩
  | ok i =>
    rcases exists_raises_or_fault_kept (s := s) hd with hraises | ⟨u, hu, hkept⟩
    · exact hraises
    · obtain rfl := Host.Outcome.next.inj (hu.symm.trans ((commandStep_of_decoded hf hd).symm.trans h))
      exact absurd (hf.symm.trans (hkept.symm.trans ht)) Bool.false_ne_true

/-- A command that faults takes the fault entry of R132 with a cause its rules raise. -/
theorem eq_raise_of_fault (h : commandStep c s = .next t) (ht : t.fault = true) :
    ∃ cause, Raises c s cause ∧ t = raise cause s := by
  obtain ⟨cause, hraises⟩ := exists_raises_of_fault hf h ht
  exact ⟨cause, hraises, Host.Outcome.next.inj (h.symm.trans (commandStep_of_raises hf hraises))⟩

theorem fault_and_fcause_iff_raises (h : commandStep c s = .next t) :
    (t.fault = true ∧ t.fcause = cause) ↔ Raises c s cause := by
  constructor
  · rintro ⟨ht, rfl⟩
    obtain ⟨cause, hraises, rfl⟩ := eq_raise_of_fault hf h ht
    exact hraises
  · intro hraises
    obtain rfl := Host.Outcome.next.inj (h.symm.trans (commandStep_of_raises hf hraises))
    exact ⟨rfl, rfl⟩

end

/-- Settles O37: the state after a fault is the fault entry's. -/
theorem faultEntryChangesNothingElse : Obligations.FaultEntryChangesNothingElse := by
  intro c s t hf h ht
  obtain ⟨cause, hraises, rfl⟩ := eq_raise_of_fault hf h ht
  exact ⟨cause, hraises.cause_ne_none, raise_faultTaken cause s⟩

/-- Settles O38, one cause at a time. -/
theorem eachFaultCauseExactlyWhenItsRuleSays : Obligations.EachFaultCauseExactlyWhenItsRuleSays := by
  intro c s hf
  obtain ⟨t, h, -⟩ := inputStep_next (.command c) s
  refine ⟨t, h, (fault_and_fcause_iff_raises hf h).trans raises_illegalCmd_iff,
    (fault_and_fcause_iff_raises hf h).trans raises_hNoValue_iff,
    (fault_and_fcause_iff_raises hf h).trans raises_blockIncomplete_iff,
    (fault_and_fcause_iff_raises hf h).trans raises_blockOverflow_iff, fun ht => ?_⟩
  exact ((fault_and_fcause_iff_raises hf h).mp ⟨ht, rfl⟩).cause_ne_none

end Sys2Proof.Machine
end

section
/-! PROOFS. The faulted engine (60_exceptions.md R133, R134): a command writes its response only, one command or a list of them, and
a launch that ends there is a fault outcome. -/

namespace Sys2Proof.Machine

/-- While FAULT = 1 a command writes its response only: STATUS for GETS, none for every other word (R133). -/
theorem commandStep_of_faulted {s : State} (hf : s.fault = true) (c : Command) :
    commandStep c s = .next { s with rdata := if c.cmd = getsCmd then some (status s) else none } := by
  by_cases hc : c.cmd = getsCmd
  · rw [commandStep_gets_of_faulted hf hc, if_pos hc]; rfl
  · rw [commandStep_ignored_of_faulted hf hc, if_neg hc]; rfl

theorem commandSteps_of_faulted (cs : List Command) {s : State} (hf : s.fault = true) :
    ∃ r, commandSteps cs s = .next r ∧ OnlyRead s r.final := by
  induction cs generalizing s with
  | nil => exact ⟨_, rfl, ⟨rfl, rfl⟩, ⟨rfl, rfl, rfl⟩, ⟨rfl, rfl⟩⟩
  | cons c cs ih =>
    have hstep := commandStep_of_faulted hf c
    obtain ⟨r, hr, hread⟩ := ih (s := { s with rdata := if c.cmd = getsCmd then some (status s) else none }) hf
    exact ⟨_, commandSteps_cons hstep hr, hread.hash, hread.block, hread.faults⟩

theorem settleLaunch_of_faulted {r : LaunchResult} (hf : r.final.fault = true) :
    settleLaunch (.next r) = .fault (launchFault r.final.fcause) :=
  if_pos hf

theorem settleLaunch_of_unfaulted {r : LaunchResult} (hf : r.final.fault = false) : settleLaunch (.next r) = .next r :=
  if_neg (Bool.eq_false_iff.mp hf)

/-- Settles O39: the one equation of a faulted engine's command step, with STATUS read at FAULT and FCAUSE, and the two ends of a
launch. -/
theorem faultedEngineAnswersOnlyGets : Obligations.FaultedEngineAnswersOnlyGets := by
  refine ⟨fun c s hf => ?_, fun issued e r hown hr => ?_⟩
  · exact ⟨_, commandStep_of_faulted hf c, ⟨rfl, rfl⟩, ⟨rfl, rfl, rfl⟩, ⟨rfl, rfl⟩, rfl, fun hc => if_neg hc,
      fun hc => ⟨status s, if_pos hc, (status_fault s).trans hf, status_fcause s⟩⟩
  · rw [launch_of_own hown, hr]
    exact ⟨settleLaunch_of_faulted, settleLaunch_of_unfaulted⟩

/-- Settles O40: the commands write the response only, so FAULT and FCAUSE with all else stay. -/
theorem firstFaultCauseIsKept : Obligations.FirstFaultCauseIsKept := by
  intro cs s hf
  obtain ⟨r, hr, hhash, hblock, hfault, hfcause⟩ := commandSteps_of_faulted cs hf
  exact ⟨r, hr, hfault.trans hf, hfcause, hhash, hblock⟩

end Sys2Proof.Machine
end

section
/-! PROOFS. The reset event and the state right after reset (70_reset_and_hazards.md R143, R144): what a step with the reset event
oldest answers, that STATUS reads 0 where nothing holds a value, and that no other input leads out of the faulted state. -/

namespace Sys2Proof.Machine

/-! ### The state right after reset -/

theorem resetState_reset (p : List Input) : ResetState { State.reset with pending := p } where
  hval _ := Vector.getElem_replicate _
  mbv _ := Vector.getElem_replicate _
  bptr := rfl
  fault := rfl
  fcause := rfl

section
variable {s : State} (hs : ResetState s)
include hs

theorem ResetState.hval_eq : s.hval = Vector.replicate 8 false :=
  Vector.ext fun i hi => (hs.hval ⟨i, hi⟩).trans (Vector.getElem_replicate hi).symm

/-- The first byte of a word holds no value, so the word is not complete. -/
theorem ResetState.wordComplete_eq (i : Fin 16) : wordComplete s i = false := by
  have hfirst : s.mbv[8 * i.val] = false := hs.mbv ⟨8 * i.val, by omega⟩
  simp [wordComplete, hfirst]

theorem ResetState.wval_eq : wval s = Vector.replicate 16 false :=
  Vector.ext fun i hi => by simp [wval, hs.wordComplete_eq]

/-- Every field of STATUS is 0 where nothing holds a value and there is no fault (R144). -/
theorem ResetState.status_eq_zero : status s = 0 := by
  rw [status, hs.hval_eq, hs.wval_eq, hs.bptr, hs.fault, hs.fcause]
  decide

end

/-- Settles O42: nothing holds a value in `State.reset`, so STATUS reads 0. -/
theorem resetHoldsNothing : Obligations.ResetHoldsNothing :=
  ⟨resetState_reset [], (resetState_reset []).status_eq_zero, rfl⟩

/-- Settles O46: the base of the induction whose step is `step_inv`. -/
theorem invariantHoldsAtReset : Obligations.InvariantHoldsAtReset := inv_reset

/-! ### The step with the reset event oldest, and with nothing issued -/

theorem step_of_reset {s : State} {rest : List Input} (hp : s.pending = .reset :: rest) :
    step s = .next { State.reset with pending := rest } :=
  step_of_cons hp

/-- Settles O12: taking the reset event leaves the later inputs (log 12), and an idle step leaves everything (log 5). -/
theorem stepTakesResetAndHoldsWhenIdle : Obligations.StepTakesResetAndHoldsWhenIdle :=
  ⟨fun _ _ hp => step_of_reset hp, fun _ hp => step_of_nil hp⟩

/-- A command on a faulted engine writes its response only, and an idle step nothing, so a step that clears FAULT took the reset
event. -/
theorem exists_reset_of_fault_cleared {s t : State} (hf : s.fault = true) (h : step s = .next t) (ht : t.fault = false) :
    ∃ rest, s.pending = .reset :: rest := by
  have hchanged : t.fault ≠ s.fault := by simp [hf, ht]
  cases hp : s.pending with
  | nil =>
    obtain rfl := Host.Outcome.next.inj ((step_of_nil hp).symm.trans h)
    exact absurd rfl hchanged
  | cons input rest =>
    cases input with
    | reset => exact ⟨rest, rfl⟩
    | command c =>
      have hstep := (step_of_cons hp).trans (commandStep_of_faulted (s := { s with pending := rest }) hf c)
      obtain rfl := Host.Outcome.next.inj (hstep.symm.trans h)
      exact absurd rfl hchanged

/-- Settles O41: STATUS reads 0 because the state after the event is a reset state, whatever is pending. -/
theorem resetEventGivesTheResetState : Obligations.ResetEventGivesTheResetState := by
  refine ⟨fun s rest hp => ?_, fun s t hf h ht => exists_reset_of_fault_cleared hf h ht⟩
  have hreset := resetState_reset rest
  exact ⟨_, step_of_reset hp, hreset, hreset.status_eq_zero, rfl, rfl⟩

end Sys2Proof.Machine
end

section
/-! PROOFS. Every command ends (70_reset_and_hazards.md R152), and a hash state read out is restored on another engine (R149 (d)). -/

namespace Sys2Proof.Machine

/-- Settles O15: a command that does not end with FAULT = 0 took the fault entry, and a faulted engine performs GETS and ignores
every other word. -/
theorem everyCommandEndsCompletedOrFaulted : Obligations.EveryCommandEndsCompletedOrFaulted := by
  refine ⟨step_next, fun c s hf => ?_, fun c s hf hc => ?_, fun c s hf hc => ?_⟩
  · obtain ⟨t, h, -⟩ := inputStep_next (.command c) s
    refine ⟨t, h, ?_⟩
    cases ht : t.fault with
    | false => exact .inl rfl
    | true =>
      obtain ⟨cause, -, htaken⟩ := faultEntryChangesNothingElse c s t hf h ht
      exact .inr ⟨cause, htaken⟩
  · exact ⟨_, status s, commandStep_gets_of_faulted hf hc, respond_responded (status s) s⟩
  · exact ⟨_, commandStep_ignored_of_faulted hf hc, rfl, ⟨rfl, rfl⟩, ⟨rfl, rfl, rfl⟩, ⟨rfl, rfl⟩⟩

/-- Settles O18: DIGESTW responds the eight words of H, and eight SETHs with them write H and its valid bits at once. -/
theorem savedHashStateIsRestored : Obligations.SavedHashStateIsRestored := by
  intro s u hs hval hu
  obtain ⟨r, hr, hwords, -⟩ := (digestMacrosReadTheHashState s hs hval).2
  obtain ⟨q, hq, hfinal⟩ := commandSteps_seths s.h (List.finRange 8) hu
  rw [foldl_writeHashWord_finRange] at hfinal
  refine ⟨r, s.h, q, hr, hwords, hq, ?_⟩
  rw [hfinal]
  exact ⟨rfl, writeHashState_hval_get s.h u, ⟨rfl, rfl, rfl⟩, ⟨rfl, rfl⟩⟩

end Sys2Proof.Machine
end

section
/-! PROOFS. Liveness of a platform's engines (70_reset_and_hazards.md R151, R152; 20_memory.md R54). Until an engine steps, what is
pending at it only grows at the end, so it stays enabled and by fairness steps; that step takes the oldest input. An input is
reached by as many such steps as there are inputs before it. -/

namespace Sys2Proof.Machine

section
variable {p : Params} {events : Nat → PlatformEvent} {engines : Nat → Platform} (hrun : PlatformRun p events engines)
  {n : Nat} {e : Engine}
include hrun

/-- While an engine does not step, inputs are issued behind what is pending and nothing else happens to it. -/
theorem engine_waits {time d : Nat} (he : (engines time)[n]? = some e)
    (hwait : ∀ k, k < d → events (time + k) ≠ .engine n) :
    ∃ inputs, (engines (time + d))[n]? = some { e with state := issueBehind inputs e.state } := by
  induction d with
  | zero => exact ⟨[], by simpa [issueBehind] using he⟩
  | succ d ih =>
    obtain ⟨inputs, hd⟩ := ih fun k hk => hwait k (Nat.lt_succ_of_lt hk)
    rcases platformEvent_engine (hrun (time + d)) hd with ⟨hstep, -⟩ | ⟨-, more, hmore⟩
    · exact absurd hstep (hwait d (Nat.lt_succ_self d))
    · exact ⟨inputs ++ more, by simpa [issueBehind, Nat.add_assoc] using hmore⟩

/-- An engine with something pending steps, having only had inputs issued behind it until then: waiting for ever, it would stay
enabled, against fairness. -/
theorem engine_steps_of_weaklyFair (hfair : WeaklyFair events engines) {time : Nat} (he : (engines time)[n]? = some e)
    (hpending : e.state.pending ≠ []) :
    ∃ later inputs, time ≤ later ∧ events later = .engine n ∧
      (engines later)[n]? = some { e with state := issueBehind inputs e.state } := by
  have hsteps : ∃ d, events (time + d) = .engine n := by
    by_contra hnever
    have hwait : ∀ d, events (time + d) ≠ .engine n := not_exists.mp hnever
    obtain ⟨later, hlater, hstep⟩ := hfair n time fun later hlater => by
      obtain ⟨d, rfl⟩ := Nat.exists_eq_add_of_le hlater
      obtain ⟨inputs, hd⟩ := engine_waits hrun he fun k (_ : k < d) => hwait k
      exact ⟨_, hd, by simp [hpending]⟩
    obtain ⟨d, rfl⟩ := Nat.exists_eq_add_of_le hlater
    exact hwait d hstep
  classical
  obtain ⟨inputs, hfirst⟩ := engine_waits hrun he fun _ hk => Nat.find_min hsteps hk
  exact ⟨_, inputs, Nat.le_add_right time _, Nat.find_spec hsteps, hfirst⟩

/-- A step of an engine takes the oldest input, completes it and leaves the others. -/
theorem engine_performs_oldest {time : Nat} {input : Input} {rest : List Input} (hevent : events time = .engine n)
    (he : (engines time)[n]? = some e) (hpending : e.state.pending = input :: rest) :
    ∃ t, inputStep input { e.state with pending := rest } = .next t ∧ t.pending = rest ∧
      (engines (time + 1))[n]? = some { e with state := t } := by
  obtain ⟨t, ht, hrest⟩ := inputStep_next input { e.state with pending := rest }
  refine ⟨t, ht, hrest, ?_⟩
  rcases platformEvent_engine (hrun time) he with ⟨-, u, hu, hafter⟩ | ⟨hother, -⟩
  · obtain rfl := Host.Outcome.next.inj (ht.symm.trans ((step_of_cons hpending).symm.trans hu))
    exact hafter
  · exact absurd hevent hother

end

/-- Settles O60, by induction on the inputs before the one issued: each step of the engine takes one of them. -/
theorem everyIssuedInputIsEventuallyPerformed : Obligations.EveryIssuedInputIsEventuallyPerformed := by
  intro p events engines hrun hfair n time e front input back he hpending
  induction front generalizing time e back with
  | nil =>
    obtain ⟨later, inputs, hle, hevent, hlater⟩ := engine_steps_of_weaklyFair hrun hfair he (by simp [hpending])
    have holdest : (issueBehind inputs e.state).pending = input :: (back ++ inputs) := by simp [hpending]
    obtain ⟨t, ht, -, hafter⟩ := engine_performs_oldest hrun hevent hlater holdest
    exact ⟨later, _, t, inputs, hle, hevent, hlater, holdest, ht, hafter⟩
  | cons first front ih =>
    obtain ⟨soon, inputs, hsoon, hevent, hwaited⟩ := engine_steps_of_weaklyFair hrun hfair he (by simp [hpending])
    have holdest : (issueBehind inputs e.state).pending = first :: (front ++ input :: (back ++ inputs)) := by
      simp [hpending]
    obtain ⟨s, -, hrest, hafter⟩ := engine_performs_oldest hrun hevent hwaited holdest
    obtain ⟨later, u, t, rest, hle, hperformed⟩ := ih (soon + 1) _ _ hafter hrest
    rw [List.append_assoc] at hperformed
    exact ⟨later, u, t, inputs ++ rest, hsoon.trans (Nat.le_of_succ_le hle), hperformed⟩

end Sys2Proof.Machine
end
